-- ==== Sys2Proof/Word.lean ====
section
/-! DEFINITION. The two widths of the engine: an 8-bit register or data byte, and a 32-bit command word
(spec/00_scope.md R8). Bit `i` of a value `v` is `v.getLsbD i`, bit 0 the least significant (R9); every value is unsigned. -/

namespace Sys2Proof

/-- An 8-bit register, operand or response byte (R8, parameter `W`). -/
abbrev Byte := BitVec 8

/-- A 32-bit command word, sampled whole at one edge; it has no byte order (R8, R35). -/
abbrev Word := BitVec 32

end Sys2Proof
end

