-- ==== Sys2Proof/Syntax.lean ====
section
/-! DEFINITION. The commands of the opcode table, the command-word format, the inputs at one clock edge, the outputs a host
may read, and the lines of a host program (spec/30_encoding.md R46, R47, R49, R55, R56). -/

namespace Sys2Proof

/-- One constructor per row of spec/opcode_table.json (R49). Operands are whole bytes, so every term is a legal command:
"Every 8-bit value of every operand field is legal" (R48). -/
inductive Instr
  /-- `INITDEF` (R59). -/
  | initdef
  /-- `INITCUS poly, init, xorout` (R60). -/
  | initcus (poly init xorout : Byte)
  /-- `PUSH b` (R65). -/
  | push (b : Byte)
  /-- `RESET` (R70). -/
  | reset
  /-- `GET` (R71). -/
  | get
  deriving DecidableEq, Repr

/-- The fields of the one command format `CW` (R47). -/
structure CW where
  /-- `w[31:24]` -/
  C  : BitVec 8
  /-- `w[23:16]` -/
  B  : BitVec 8
  /-- `w[15:8]` -/
  A  : BitVec 8
  /-- `w[7:3]`, reserved -/
  Z  : BitVec 5
  /-- `w[2:0]` -/
  OP : BitVec 3
  deriving DecidableEq, Repr

/-- Why a word is illegal: the conditions (a), (b), (c) of R52. -/
inductive Illegal
  /-- (a) `OP` is `0b000`, `0b110` or `0b111`. -/
  | reservedOpcode
  /-- (b) `Z` is not zero. -/
  | reservedZ
  /-- (c) a field the opcode does not use is not zero. -/
  | unusedField
  deriving DecidableEq, Repr

/-- What a 32-bit word decodes to: one command, or `ILLEGAL` with its reason (R50). -/
inductive Decoded
  | command (i : Instr)
  | illegal (why : Illegal)
  deriving DecidableEq, Repr

/-- The inputs sampled at one rising edge of `clk` (R46). -/
structure Pins where
  rst      : Bool
  cmdValid : Bool
  cmdWord  : Word
  deriving DecidableEq, Repr

/-- The outputs a host may sample (R46). -/
inductive Output
  | respValid
  | respData
  | respErr
  | crcOut
  deriving DecidableEq, Repr

/-- One line of a host program: a command, a raw `.word`, or a pseudo-operation (R55, R56). -/
inductive HostLine
  | instr (i : Instr)
  /-- `.word 0x........`, the only text that gives an illegal word (R55). -/
  | word (w : Word)
  /-- `BATCH [b0, ..., bn-1]` -/
  | batchList (bytes : List Byte)
  /-- `BATCH data, size`, over the host's own memory (R33). -/
  | batchBuffer (data size : Nat)
  /-- `IDLE n` -/
  | idle (n : Nat)
  deriving DecidableEq, Repr

end Sys2Proof
end

