-- ==== Sys2Proof/Machine/Operands.lean ====
section
/-! DEFINITION. The operand fields of a command word, "taken bit for bit" (spec/30_encoding.md R47, R48). -/

namespace Sys2Proof.Machine

/-- `C = w[31:24]` -/
def fieldC (w : Word) : Byte := w.extractLsb' 24 8

/-- `B = w[23:16]` -/
def fieldB (w : Word) : Byte := w.extractLsb' 16 8

/-- `A = w[15:8]` -/
def fieldA (w : Word) : Byte := w.extractLsb' 8 8

/-- `Z = w[7:3]` -/
def fieldZ (w : Word) : BitVec 5 := w.extractLsb' 3 5

/-- `OP = w[2:0]` -/
def fieldOP (w : Word) : BitVec 3 := w.extractLsb' 0 3

/-- The fields of a word (R47). -/
def fieldsOf (w : Word) : CW :=
  { C := fieldC w, B := fieldB w, A := fieldA w, Z := fieldZ w, OP := fieldOP w }

/-- The word with given fields, in the shift-and-or form of R55, at the places of R47. -/
def wordOf (c : CW) : Word :=
  (c.C.setWidth 32 <<< 24) ||| (c.B.setWidth 32 <<< 16) ||| (c.A.setWidth 32 <<< 8) ||| (c.Z.setWidth 32 <<< 3) |||
    c.OP.setWidth 32

end Sys2Proof.Machine
end

