-- ==== Sys2Proof/Decode.lean ====
section
/-! DEFINITION. Decoding of any 32-bit word to one command or a named illegality (spec/30_encoding.md R50), the encoder
(R47, R49, R55) and the mask/match table (R51). -/

namespace Sys2Proof

open Sys2Proof.Machine

/-- `w[31:8] == 0`: the check of the commands without operand (R50). -/
def highBitsZero (w : Word) : Bool := w.extractLsb' 8 24 == 0#24

/-- `w[31:16] == 0`: the check of `PUSH` (R50). -/
def upperHalfZero (w : Word) : Bool := w.extractLsb' 16 16 == 0#16

/-- `decode` of R50, total on all words; the last arm is the opcodes `0b000`, `0b110` and `0b111`. -/
def decode (w : Word) : Decoded :=
  if fieldZ w != 0#5 then .illegal .reservedZ
  else match fieldOP w with
    | 0b001#3 => if highBitsZero w then .command .initdef else .illegal .unusedField
    | 0b010#3 => .command (.initcus (fieldA w) (fieldB w) (fieldC w))
    | 0b011#3 => if upperHalfZero w then .command (.push (fieldA w)) else .illegal .unusedField
    | 0b100#3 => if highBitsZero w then .command .reset else .illegal .unusedField
    | 0b101#3 => if highBitsZero w then .command .get else .illegal .unusedField
    | _ => .illegal .reservedOpcode

/-- The fields of a command's word (R47, R49). -/
def encodeFields : Instr → CW
  | .initdef => { C := 0, B := 0, A := 0, Z := 0, OP := 0b001 }
  | .initcus poly init xorout => { C := xorout, B := init, A := poly, Z := 0, OP := 0b010 }
  | .push b => { C := 0, B := 0, A := b, Z := 0, OP := 0b011 }
  | .reset => { C := 0, B := 0, A := 0, Z := 0, OP := 0b100 }
  | .get => { C := 0, B := 0, A := 0, Z := 0, OP := 0b101 }

/-- The word of a command (R55). -/
def encode (i : Instr) : Word := wordOf (encodeFields i)

/-- The command a word stands for, where it is legal. -/
def decodeInstr (w : Word) : Option Instr :=
  match decode w with
  | .command i => some i
  | .illegal _ => none

/-- The decoder on an instruction given by its opcode-table bits: bits above `nbits` are zero, bit `i` is `cmd_word[i]`
(R35, log 15). -/
def decodeTableWord (nbits w : Nat) : Option Instr :=
  decodeInstr (BitVec.ofNat 32 (w % 2 ^ nbits))

/-- The mnemonic of a command (R49), as the opcode table spells it. -/
def mnemonicOf : Instr → String
  | .initdef => "INITDEF"
  | .initcus _ _ _ => "INITCUS"
  | .push _ => "PUSH"
  | .reset => "RESET"
  | .get => "GET"

/-- One row of R51's table: a word `w` is that command exactly when `(w AND mask) == value`. -/
structure EncodingRow where
  mnemonic : String
  value    : Word
  mask     : Word
  /-- The 32 bits from bit 31 down to bit 0, with letters for operand bits. -/
  pattern  : String
  deriving DecidableEq, Repr

/-- R51's table. -/
def encodingTable : List EncodingRow :=
  [ ⟨"INITDEF", 0x00000001, 0xFFFFFFFF, "00000000000000000000000000000001"⟩,
    ⟨"INITCUS", 0x00000002, 0x000000FF, "xxxxxxxxiiiiiiiipppppppp00000010"⟩,
    ⟨"PUSH", 0x00000003, 0xFFFF00FF, "0000000000000000dddddddd00000011"⟩,
    ⟨"RESET", 0x00000004, 0xFFFFFFFF, "00000000000000000000000000000100"⟩,
    ⟨"GET", 0x00000005, 0xFFFFFFFF, "00000000000000000000000000000101"⟩ ]

/-- Does a word match a row (R51)? -/
def rowMatches (r : EncodingRow) (w : Word) : Bool := w &&& r.mask == r.value

/-- The mask a pattern writes out: 1 where it fixes the bit. -/
def patternMask (p : String) : Word :=
  p.toList.foldl (fun m c => (m <<< 1) ||| (if c == '0' || c == '1' then 1#32 else 0#32)) 0#32

/-- The fixed bits a pattern writes out: 1 where it says 1. -/
def patternValue (p : String) : Word :=
  p.toList.foldl (fun m c => (m <<< 1) ||| (if c == '1' then 1#32 else 0#32)) 0#32

end Sys2Proof
end

