-- ==== Sys2Proof/Config.lean ====
section
/-! DEFINITION. What the spec leaves to the implementation: the one open parameter `POWERUP_STATE`
(spec/00_scope.md R8, 70_reset_and_hazards.md R93). The spec's fixed parameters stand in Machine/Params.lean. -/

namespace Sys2Proof

/-- What the registers and outputs hold between power-up and the first reset or initialising command (R93). -/
structure PowerUpState where
  poly      : Byte
  init      : Byte
  xorout    : Byte
  acc       : Byte
  respValid : Bool
  respData  : Byte
  respErr   : Bool
  deriving DecidableEq, Repr, Inhabited

/-- `POWERUP_STATE`: an open value with no body (R8: "A model does not read it"). It fills the fields of the state at
power-up, and no step reads it: in phase UNINIT every use faults (R24, R80). Log 4. -/
opaque Config.powerUpState : PowerUpState

end Sys2Proof
end

