-- ==== Sys2Proof/Machine/Params.lean ====
section
/-! DEFINITION. The parameters the spec fixes: the default configuration (spec/00_scope.md R8, R17; decision D22, log 20). -/

namespace Sys2Proof.Machine

/-- `DEFAULT_POLY` (R8, R59). -/
def defaultPoly : Byte := 0xB7#8

/-- `DEFAULT_INIT` (R8, R59). -/
def defaultInit : Byte := 0xFF#8

/-- `DEFAULT_XOROUT` (R8, R59). -/
def defaultXorout : Byte := 0x00#8

end Sys2Proof.Machine
end

