-- ==== Sys2Proof/Machine/State.lean ====
section
/-! DEFINITION. The state of the engine (spec/10_state.md R18 to R31) with the host's pending inputs (R25, R104), the
reasons a step can stop, and the states after a hardware reset and at power-up. -/

namespace Sys2Proof.Machine

/-- The model's phase (R24). -/
inductive Phase
  /-- Power-up, before the first reset or initialising command: the registers hold values nothing fixes. -/
  | uninit
  | ready
  deriving DecidableEq, Repr

/-- Everything the spec gives the engine, and the inputs its host still has to present. -/
structure State where
  /-- Generator polynomial, `poly[i]` the coefficient of x^i, x^8 implicit (R20). -/
  poly      : Byte
  /-- Initial value (R21). -/
  init      : Byte
  /-- Final XOR value (R22). -/
  xorout    : Byte
  /-- Accumulator (R19). -/
  acc       : Byte
  /-- Initialisation phase (R24). -/
  phase     : Phase
  /-- `resp_valid` (R27). -/
  respValid : Bool
  /-- `resp_data` (R27). -/
  respData  : Byte
  /-- `resp_err`, the only status bit (R26, R27). -/
  respErr   : Bool
  /-- The inputs the host presents at the coming edges, first edge first: the host's command list (R25, R104).
  The model's own field, log 1. -/
  host      : List Pins
  deriving DecidableEq, Repr

/-- Which use of the engine came before its initialisation (R78: "the model records the command and the fact"). -/
inductive UninitUse
  /-- A legal command other than the initialisers; its word is `encode i`, the only word that decodes to it. -/
  | command (i : Instr)
  /-- An illegal word: `UninitializedUse(op = ILLEGAL, word = w)` (R79). -/
  | illegalWord (w : Word)
  /-- A read of an output (R80). -/
  | read (o : Output)
  deriving DecidableEq, Repr

/-- Why the machine stops. -/
inductive Fault
  /-- Raised by `PUSH`, `RESET`, `GET`, an illegal word and a read of an output while the phase is UNINIT (R80). Safe: the
  hardware goes on with contents nothing fixes, and the model promises nothing of it. -/
  | uninitializedUse (use : UninitUse)
  deriving DecidableEq, Repr

/-- Why something has no meaning. -/
inductive Refusal
  /-- Raised by an arm of `exec` that has no meaning yet; no arm is left. Safe. -/
  | notModelled (mnemonic : String)
  /-- Raised on the host's side when a `BATCH` is formed from a byte list whose length is not `size` (R73, U3). Safe. -/
  | batchSizeMismatch (size length : Nat)
  /-- Raised on the host's side when a byte of `BATCH data, size` is not readable in host memory (R76, U3). Safe. -/
  | hostByteUnreadable (addr : Nat)
  deriving DecidableEq, Repr

/-- The state a hardware reset leaves (R31), with nothing pending on the host's side (log 1). -/
def State.reset : State :=
  { poly := defaultPoly, init := defaultInit, xorout := defaultXorout, acc := defaultInit, phase := .ready,
    respValid := false, respData := 0x00, respErr := false, host := [] }

/-- Power-up (R93): phase UNINIT, every register and output at `POWERUP_STATE` (log 4). -/
def State.powerUp : State :=
  { poly := Config.powerUpState.poly, init := Config.powerUpState.init, xorout := Config.powerUpState.xorout,
    acc := Config.powerUpState.acc, phase := .uninit, respValid := Config.powerUpState.respValid,
    respData := Config.powerUpState.respData, respErr := Config.powerUpState.respErr, host := [] }

end Sys2Proof.Machine
end

