-- ==== Sys2Proof/Machine/Flags.lean ====
section
/-! DEFINITION. The response register: the engine has no flags, and `resp_err` is its only status bit
(spec/10_state.md R26, R27; 00_scope.md R11). -/

namespace Sys2Proof.Machine

/-- `respond(d, e)` (R11) together with the `resp_valid <- 1` of the edge that accepts the command (R96); log 17. -/
def respond (data : Byte) (err : Bool) (s : State) : State :=
  { s with respValid := true, respData := data, respErr := err }

/-- At an idle edge `resp_valid <- 0`; `resp_data` and `resp_err` hold (R96, R98). -/
def dropResponse (s : State) : State :=
  { s with respValid := false }

end Sys2Proof.Machine
end

