-- ==== Sys2Proof/Machine/Ops.lean ====
section
/-! DEFINITION. The operations the commands share: the byte step (spec/41_push.md R62 to R64), the result (00_scope.md R15),
loading a configuration (40_initialize.md), the UNINIT check (60_exceptions.md R80), the response that ends a command
(10_state.md R27), hardware reset (70_reset_and_hazards.md R92), the idle edge (R98), power-up (R93) and reading an output
(10_state.md R28, 60_exceptions.md R80). The engine enters no trap and returns from none (R77, R83, R84), so there is no
exception entry here: an illegal word is the response `answer true`. -/

namespace Sys2Proof.Machine

/-- `shl1_8` (R10): bit 7 is dropped and bit 0 becomes 0. -/
def shl1 (x : Byte) : Byte := x <<< 1

/-- `stage(poly, x)` (R62): the top bit is tested before the shift. -/
def stage (poly x : Byte) : Byte :=
  if x.getLsbD 7 then shl1 x ^^^ poly else shl1 x

/-- `crc8_step(poly, acc, b)` (R63): the byte is XORed in, then exactly 8 stages. -/
def crc8Step (poly acc b : Byte) : Byte :=
  let t0 := acc ^^^ b
  let t1 := stage poly t0
  let t2 := stage poly t1
  let t3 := stage poly t2
  let t4 := stage poly t3
  let t5 := stage poly t4
  let t6 := stage poly t5
  let t7 := stage poly t6
  let t8 := stage poly t7
  t8

/-- `F_p(v) = stage^8(p, v)` (R68). -/
def byteFn (poly v : Byte) : Byte := (stage poly)^[8] v

/-- `col_j(poly)` of the linear form (R64). -/
def column (poly : Byte) (j : Nat) : Byte := crc8Step poly 0x00 (1#8 <<< j)

/-- The linear form of the byte step (R64): the XOR of the columns of the bits set in `acc XOR b`. It is not the meaning
of `PUSH`; R64 says that it gives the same value. -/
def crc8Linear (poly acc b : Byte) : Byte :=
  (List.range 8).foldl (fun r j => if (acc ^^^ b).getLsbD j then r ^^^ column poly j else r) 0x00

/-- The accumulator after a sequence of bytes: the fold of R73. -/
def crc8Fold (poly acc : Byte) (bytes : List Byte) : Byte :=
  bytes.foldl (crc8Step poly) acc

/-- `result(S) = S.acc XOR S.xorout` (R15). -/
def result (s : State) : Byte := s.acc ^^^ s.xorout

/-- An initialiser writes all four registers together and sets the phase (R23, R59, R60). -/
def configure (poly init xorout : Byte) (s : State) : State :=
  { s with poly := poly, init := init, xorout := xorout, acc := init, phase := .ready }

/-- Write the accumulator alone (R65, R70). -/
def setAcc (v : Byte) (s : State) : State :=
  { s with acc := v }

/-- `raise UninitializedUse(use)` in phase UNINIT, else go on (R80). -/
def whenReady (use : UninitUse) (s : State) (go : Host.Outcome State Fault Refusal) : Host.Outcome State Fault Refusal :=
  match s.phase with
  | .uninit => .fault (.uninitializedUse use)
  | .ready => go

/-- A command ends with `result` of the state it leaves as its response (R27). -/
def answer (err : Bool) (s : State) : Host.Outcome State Fault Refusal :=
  .next (respond (result s) err s)

/-- An edge with `rst = 1` (R92): the reset state, whatever the phase. The host's later inputs are the host's own. -/
def hardwareReset (s : State) : State :=
  { State.reset with host := s.host }

/-- Power removed and given back (R91, R93): the power-up state; the host keeps its own list (log 19). -/
def powerCycle (s : State) : State :=
  { State.powerUp with host := s.host }

/-- Reading an output in phase UNINIT is a fault (R80); in READY it gives the value. -/
def readWhenReady {α : Type} (o : Output) (s : State) (value : α) : Except Fault α :=
  match s.phase with
  | .uninit => .error (.uninitializedUse (.read o))
  | .ready => .ok value

/-- `crc_out`, combinational (R28). -/
def readCrcOut (s : State) : Except Fault Byte := readWhenReady .crcOut s (result s)

/-- `resp_valid` (R27). -/
def readRespValid (s : State) : Except Fault Bool := readWhenReady .respValid s s.respValid

/-- `resp_data` (R27). -/
def readRespData (s : State) : Except Fault Byte := readWhenReady .respData s s.respData

/-- `resp_err` (R27). -/
def readRespErr (s : State) : Except Fault Bool := readWhenReady .respErr s s.respErr

/-- The host samples an output: no state changes (R38), and in phase UNINIT the read faults (R80). -/
def sample (o : Output) (s : State) : Host.Outcome State Fault Refusal :=
  whenReady (.read o) s (.next s)

end Sys2Proof.Machine
end

