-- ==== Sys2Proof/Machine/Initialize.lean ====
section
/-! DEFINITION. `INITDEF` and `INITCUS` (spec/40_initialize.md R59, R60): legal in every phase. -/

namespace Sys2Proof.Machine

/-- `exec_INITDEF` (R59): the default configuration. -/
def execInitdef (s : State) : Host.Outcome State Fault Refusal :=
  answer false (configure defaultPoly defaultInit defaultXorout s)

/-- `exec_INITCUS(p, i, x)` (R60): every operand value is accepted. -/
def execInitcus (poly init xorout : Byte) (s : State) : Host.Outcome State Fault Refusal :=
  answer false (configure poly init xorout s)

end Sys2Proof.Machine
end

