-- ==== Sys2Proof/Machine/Push.lean ====
section
/-! DEFINITION. `PUSH` (spec/41_push.md R65). -/

namespace Sys2Proof.Machine

/-- `exec_PUSH(S, b)` (R65): the response is the instant checksum of the new accumulator. -/
def execPush (b : Byte) (s : State) : Host.Outcome State Fault Refusal :=
  whenReady (.command (.push b)) s (answer false (setAcc (crc8Step s.poly s.acc b) s))

end Sys2Proof.Machine
end

