-- ==== Sys2Proof/Machine/ResetGet.lean ====
section
/-! DEFINITION. `RESET` and `GET` (spec/42_reset_get.md R70, R71). -/

namespace Sys2Proof.Machine

/-- `exec_RESET(S)` (R70): `acc <- init`; the command, not the `rst` input. -/
def execReset (s : State) : Host.Outcome State Fault Refusal :=
  whenReady (.command .reset) s (answer false (setAcc s.init s))

/-- `exec_GET(S)` (R71): no engine register changes. -/
def execGet (s : State) : Host.Outcome State Fault Refusal :=
  whenReady (.command .get) s (answer false s)

end Sys2Proof.Machine
end

