-- ==== Sys2Proof/Machine/Dispatch.lean ====
section
/-! DEFINITION. One arm per command (spec/70_reset_and_hazards.md R95). -/

namespace Sys2Proof.Machine

open Sys2Proof

def exec (i : Instr) (s : State) : Host.Outcome State Fault Refusal :=
  match i with
  | .initdef => Sys2Proof.Machine.execInitdef s
  | .initcus poly init xorout => Sys2Proof.Machine.execInitcus poly init xorout s
  | .push b => Sys2Proof.Machine.execPush b s
  | .reset => Sys2Proof.Machine.execReset s
  | .get => Sys2Proof.Machine.execGet s

end Sys2Proof.Machine
end

