-- ==== Sys2Proof/Machine/IllegalWord.lean ====
section
/-! DEFINITION. An accepted word that decodes to no command (spec/60_exceptions.md R79). -/

namespace Sys2Proof.Machine

/-- `exec_ILLEGAL(S, w)` (R79): no engine register changes, and the response carries `resp_err = 1`. -/
def execIllegal (w : Word) (s : State) : Host.Outcome State Fault Refusal :=
  whenReady (.illegalWord w) s (answer true s)

end Sys2Proof.Machine
end

