-- ==== Sys2Proof/Machine/Edge.lean ====
section
/-! DEFINITION. One rising edge of `clk` (spec/70_reset_and_hazards.md R95, R96; 60_exceptions.md R82) and where its inputs
come from. -/

namespace Sys2Proof

/-- `cmd_valid = 0` and `rst = 0`: the host issues nothing (R53, R98). The word is ignored. -/
def Pins.idle : Pins := { rst := false, cmdValid := false, cmdWord := 0#32 }

/-- `rst = 1` with no command beside it (R92). -/
def Pins.reset : Pins := { rst := true, cmdValid := false, cmdWord := 0#32 }

/-- A command word presented at an edge with `rst = 0` (R97). -/
def Pins.word (w : Word) : Pins := { rst := false, cmdValid := true, cmdWord := w }

/-- A command presented at an edge (R55). -/
def Pins.command (i : Instr) : Pins := Pins.word (encode i)

end Sys2Proof

namespace Sys2Proof.Machine

/-- `exec(S, w)` (R95) with the response stored (R96): an accepted command word. -/
def executeWord (w : Word) (s : State) : Host.Outcome State Fault Refusal :=
  match decode w with
  | .command i => exec i s
  | .illegal _ => execIllegal w s

/-- `edge(S, rst, cmd_valid, cmd_word)` (R96), in the order of R82: reset, then idle, then the word. -/
def edge (p : Pins) (s : State) : Host.Outcome State Fault Refusal :=
  if p.rst then .next (hardwareReset s)
  else if p.cmdValid then executeWord p.cmdWord s
  else .next (dropResponse s)

/-- What the host presents at the coming edge; nothing pending is an idle cycle (log 2). -/
def presented (s : State) : Pins := s.host.headD Pins.idle

/-- The host moves on to its next input. -/
def advance (s : State) : State := { s with host := s.host.tail }

/-- The host presents `w` as a command at the coming edge, in place of what it had for that edge (log 5). -/
def presentWord (w : Word) (s : State) : State := { s with host := Pins.word w :: s.host.tail }

end Sys2Proof.Machine
end

