-- ==== Sys2Proof/Machine/Step.lean ====
section
/-! DEFINITION. The step: one rising edge of `clk` with the inputs the host presents (spec/70_reset_and_hazards.md R96). -/

namespace Sys2Proof.Machine

/-- One rising edge (R96). The engine has no fetch and no program counter (R25): the command comes from the host's list. -/
def step (s : State) : Host.Outcome State Fault Refusal :=
  edge (presented s) (advance s)

/-- The instruction of `nbits` bits presented at the coming edge, so that the next step runs it (log 5). -/
def State.withFetchWord (s : State) (nbits w : Nat) : State :=
  presentWord (BitVec.ofNat 32 (w % 2 ^ nbits)) s

end Sys2Proof.Machine
end

