-- ==== Sys2Proof/Machine/HostSide.lean ====
section
/-! DEFINITION. The host's side of the command port: the pseudo-operations `BATCH` and `IDLE`
(spec/30_encoding.md R56, 43_batch.md R73 to R76, 20_memory.md R33) and several hosts on one port (20_memory.md R43).
The host's memory is outside the spec (R33); it is an argument here and no part of State (log 14). -/

namespace Sys2Proof.Machine

/-- One `PUSH` per byte, in order, one edge each. -/
def pushPins (bytes : List Byte) : List Pins :=
  bytes.map (fun b => Pins.command (.push b))

/-- `PUSH b0, ..., PUSH bn-1, GET`, one edge each: the expansion of `BATCH [b0, ..., bn-1]` (R56). -/
def batchPins (bytes : List Byte) : List Pins :=
  pushPins bytes ++ [Pins.command .get]

/-- `IDLE n` (R56). -/
def idlePins (n : Nat) : List Pins := List.replicate n Pins.idle

/-- `MemRead(addr, 1)` in the host's memory (R11, R33); none where the host has no readable byte. -/
def hostRead (mem : List Host.Cell) (addr : Nat) : Option Byte := mem.lookup addr

/-- The bytes at `data`, `data + 1`, ..., `data + size - 1`, read "in increasing k" (R33); refused at the first that is not
readable (R76, U3). DESIGN CHOICE (log 14): the spec does not say whether the host's memory may change between these reads;
here one memory answers all of them, as if before the first `PUSH`. -/
def readBuffer (mem : List Host.Cell) (data : Nat) : Nat → Except Refusal (List Byte)
  | 0 => .ok []
  | size + 1 =>
    match hostRead mem data with
    | none => .error (.hostByteUnreadable data)
    | some b =>
      match readBuffer mem (data + 1) size with
      | .error r => .error r
      | .ok bs => .ok (b :: bs)

/-- A `BATCH` formed from a byte list and a size: refused unless the list has that length (R73, U3). -/
def formBatch (size : Nat) (bytes : List Byte) : Except Refusal (List Pins) :=
  if bytes.length = size then .ok (batchPins bytes) else .error (.batchSizeMismatch size bytes.length)

/-- `BATCH data, size` (R56, R73). -/
def batchBuffer (mem : List Host.Cell) (data size : Nat) : Except Refusal (List Pins) :=
  match readBuffer mem data size with
  | .error r => .error r
  | .ok bytes => formBatch size bytes

/-- The edges of one line of a host program (R56). -/
def expandLine (mem : List Host.Cell) : HostLine → Except Refusal (List Pins)
  | .instr i => .ok [Pins.command i]
  | .word w => .ok [Pins.word w]
  | .batchList bytes => .ok (batchPins bytes)
  | .batchBuffer data size => batchBuffer mem data size
  | .idle n => .ok (idlePins n)

/-- The edges of a host program, its lines in order (R41). DESIGN CHOICE (log 14): one memory, unchanged while the program
runs, serves every line; and a `BATCH` that cannot be formed (R76, U3) refuses the whole program, so that the lines before it
have no edges either. The spec says neither. -/
def expandProgram (mem : List Host.Cell) : List HostLine → Except Refusal (List Pins)
  | [] => .ok []
  | line :: rest =>
    match expandLine mem line with
    | .error r => .error r
    | .ok ps =>
      match expandProgram mem rest with
      | .error r => .error r
      | .ok qs => .ok (ps ++ qs)

/-- `zs` is `xs` and `ys` merged, each in its own order: what one port sees of two hosts that do not exclude each other
(R43: "every interleaving of their commands"). Log 10. -/
inductive Interleaves {α : Type} : List α → List α → List α → Prop
  | nil : Interleaves [] [] []
  | left {x : α} {xs ys zs : List α} : Interleaves xs ys zs → Interleaves (x :: xs) ys (x :: zs)
  | right {y : α} {xs ys zs : List α} : Interleaves xs ys zs → Interleaves xs (y :: ys) (y :: zs)

end Sys2Proof.Machine
end

