-- ==== Sys2Proof/Machine/Assembler.lean ====
section
/-! DEFINITION. The textual form of a host program (spec/30_encoding.md R55, R56): one command per line, a case-insensitive
mnemonic, comma-separated operands, `;` comments. White space, the blank after a mnemonic, the digits of a literal and a
`BATCH` list over several lines are the model's choice (log 13). A text is a list of characters. -/

namespace Sys2Proof.Machine

/-- Why a line is refused (R55). -/
inductive AsmError
  | unknownMnemonic
  /-- "a wrong operand count" (R55) -/
  | wrongOperandCount
  /-- "a literal outside 0 to 255" (R55), or a `.word` above 32 bits -/
  | literalOutOfRange
  /-- no hexadecimal or decimal literal -/
  | badLiteral
  /-- a `[` list of `BATCH` that is not closed, on its line or on those after it (log 13) -/
  | unclosedList
  /-- the expansion of a line is refused on the host's side (R76) -/
  | notFormed (why : Refusal)
  deriving DecidableEq, Repr

/-- Blank or tab (log 13). -/
def isSpace (c : Char) : Bool := c == ' ' || c == '\t'

/-- Remove white space at both ends. -/
def trim (cs : List Char) : List Char :=
  ((cs.dropWhile isSpace).reverse.dropWhile isSpace).reverse

/-- Upper case of an ASCII letter: "The mnemonic is case-insensitive" (R55). -/
def upper (c : Char) : Char :=
  if 97 ≤ c.toNat ∧ c.toNat ≤ 122 then Char.ofNat (c.toNat - 32) else c

/-- Everything before a `;`, which "starts a comment that runs to the end of the line" (R55). -/
def dropComment (cs : List Char) : List Char := cs.takeWhile (fun c => c != ';')

/-- The pieces between commas; one piece where there is no comma. -/
def splitCommas : List Char → List (List Char)
  | [] => [[]]
  | c :: cs =>
    if c == ',' then [] :: splitCommas cs
    else
      match splitCommas cs with
      | [] => [[c]]
      | piece :: rest => (c :: piece) :: rest

/-- The operands of a line: none where nothing stands there. -/
def operandsOf (cs : List Char) : List (List Char) :=
  if trim cs = [] then [] else (splitCommas cs).map trim

/-- The value of a digit below `base`. DESIGN CHOICE (log 13): R55 makes only the mnemonic case-insensitive and writes its
hexadecimal digits in upper case; `a` to `f` are accepted here too. -/
def digitValue (base : Nat) (c : Char) : Option Nat :=
  let n := c.toNat
  let v :=
    if 48 ≤ n ∧ n ≤ 57 then n - 48
    else if 65 ≤ n ∧ n ≤ 70 then n - 55
    else if 97 ≤ n ∧ n ≤ 102 then n - 87
    else base
  if v < base then some v else none

/-- The digits of a number, most significant first. -/
def digitsValue (base : Nat) : List Char → Nat → Option Nat
  | [], value => some value
  | c :: cs, value =>
    match digitValue base c with
    | none => none
    | some d => digitsValue base cs (value * base + d)

/-- A non-empty run of digits. -/
def numeral (base : Nat) (cs : List Char) : Option Nat :=
  if cs = [] then none else digitsValue base cs 0

/-- A literal: hexadecimal after `0x`, else decimal (R55). -/
def literal : List Char → Option Nat
  | '0' :: 'x' :: ds => numeral 16 ds
  | '0' :: 'X' :: ds => numeral 16 ds
  | ds => numeral 10 ds

/-- A number of the host's own, without a bound: an address, a size, a count of idle cycles. -/
def natOperand (cs : List Char) : Except AsmError Nat :=
  match literal cs with
  | none => .error .badLiteral
  | some n => .ok n

/-- A literal of at most `bits` bits. -/
def boundedOperand (bits : Nat) (cs : List Char) : Except AsmError (BitVec bits) :=
  match literal cs with
  | none => .error .badLiteral
  | some n => if n < 2 ^ bits then .ok (BitVec.ofNat bits n) else .error .literalOutOfRange

/-- "An operand is an 8-bit unsigned literal" (R55). -/
def byteOperand (cs : List Char) : Except AsmError Byte := boundedOperand 8 cs

/-- Byte operands in order, the first bad one refused. -/
def byteOperands : List (List Char) → Except AsmError (List Byte)
  | [] => .ok []
  | cs :: rest =>
    match byteOperand cs with
    | .error e => .error e
    | .ok b =>
      match byteOperands rest with
      | .error e => .error e
      | .ok bs => .ok (b :: bs)

/-- A command that takes no operand. -/
def parseBare (i : Instr) (operands : List (List Char)) : Except AsmError HostLine :=
  if operands = [] then .ok (.instr i) else .error .wrongOperandCount

/-- `INITCUS poly, init, xorout` (R55). -/
def parseInitcus (operands : List (List Char)) : Except AsmError HostLine :=
  match byteOperands operands with
  | .error e => .error e
  | .ok [poly, init, xorout] => .ok (.instr (.initcus poly init xorout))
  | .ok _ => .error .wrongOperandCount

/-- `PUSH b` (R55). -/
def parsePush (operands : List (List Char)) : Except AsmError HostLine :=
  match byteOperands operands with
  | .error e => .error e
  | .ok [b] => .ok (.instr (.push b))
  | .ok _ => .error .wrongOperandCount

/-- `.word 0x........` (R55). -/
def parseWord : List (List Char) → Except AsmError HostLine
  | [cs] =>
    match boundedOperand 32 cs with
    | .error e => .error e
    | .ok w => .ok (.word w)
  | _ => .error .wrongOperandCount

/-- `IDLE n` (R56). -/
def parseIdle : List (List Char) → Except AsmError HostLine
  | [cs] =>
    match natOperand cs with
    | .error e => .error e
    | .ok n => .ok (.idle n)
  | _ => .error .wrongOperandCount

/-- `BATCH data, size` (R56). -/
def parseBuffer : List (List Char) → Except AsmError HostLine
  | [data, size] =>
    match natOperand data, natOperand size with
    | .ok d, .ok n => .ok (.batchBuffer d n)
    | .error e, _ => .error e
    | _, .error e => .error e
  | _ => .error .wrongOperandCount

/-- `BATCH [b0, ..., bn-1]` or `BATCH data, size` (R56), on one line; `joinLists` has put together a list that runs over
several (log 13). -/
def parseBatch (text : List Char) : Except AsmError HostLine :=
  match trim text with
  | '[' :: inside =>
    match inside.reverse with
    | ']' :: body =>
      match byteOperands (operandsOf body.reverse) with
      | .error e => .error e
      | .ok bytes => .ok (.batchList bytes)
    | _ => .error .unclosedList
  | other => parseBuffer (operandsOf other)

/-- A line with a mnemonic, already in upper case, and the text after it (R55, R56). -/
def parseCommand (mnemonic text : List Char) : Except AsmError HostLine :=
  if mnemonic = "INITDEF".toList then parseBare .initdef (operandsOf text)
  else if mnemonic = "INITCUS".toList then parseInitcus (operandsOf text)
  else if mnemonic = "PUSH".toList then parsePush (operandsOf text)
  else if mnemonic = "RESET".toList then parseBare .reset (operandsOf text)
  else if mnemonic = "GET".toList then parseBare .get (operandsOf text)
  else if mnemonic = ".WORD".toList then parseWord (operandsOf text)
  else if mnemonic = "BATCH".toList then parseBatch text
  else if mnemonic = "IDLE".toList then parseIdle (operandsOf text)
  else .error .unknownMnemonic

/-- A line without its comment and without white space at its ends. -/
def bodyOf (cs : List Char) : List Char := trim (dropComment cs)

/-- The mnemonic of a line, in upper case (R55). DESIGN CHOICE (log 13): it is everything up to the first blank or tab, so a
blank must stand between a mnemonic and its operands. -/
def mnemonicText (cs : List Char) : List Char :=
  ((bodyOf cs).takeWhile (fun c => !isSpace c)).map upper

/-- The text after the mnemonic of a line. -/
def operandText (cs : List Char) : List Char :=
  (bodyOf cs).dropWhile (fun c => !isSpace c)

/-- One line of text; none for an empty line or a comment alone (log 13). -/
def parseLine (cs : List Char) : Except AsmError (Option HostLine) :=
  if bodyOf cs = [] then .ok none
  else
    match parseCommand (mnemonicText cs) (operandText cs) with
    | .error e => .error e
    | .ok line => .ok (some line)

/-- The edges of one line of text, over the host's memory. -/
def assembleLine (mem : List Host.Cell) (cs : List Char) : Except AsmError (List Pins) :=
  match parseLine cs with
  | .error e => .error e
  | .ok none => .ok []
  | .ok (some line) =>
    match expandLine mem line with
    | .error r => .error (.notFormed r)
    | .ok ps => .ok ps

/-- Does a line open a `BATCH` list that it does not close? -/
def opensList (cs : List Char) : Bool := cs.contains '[' && !cs.contains ']'

/-- The lines of a program, a list that a line leaves open put together with the lines that follow up to its `]`.
DESIGN CHOICE (log 13): R55 says "one command per line", and program P2 of spec/95_test_vectors.md writes one `BATCH` list
over two lines; here a list may run over several, and a line's end
counts as a blank. -/
def joinLists : List (List Char) → List Char → List (List Char)
  | [], started => if started = [] then [] else [started]
  | cs :: rest, started =>
    let line := if started = [] then dropComment cs else started ++ ' ' :: dropComment cs
    if opensList line then joinLists rest line else line :: joinLists rest []

/-- The edges of lines of text in order. DESIGN CHOICE (logs 13 and 14): one memory, unchanged while the program runs, serves
every line, and the first line that is refused refuses the whole text. -/
def assembleLines (mem : List Host.Cell) : List (List Char) → Except AsmError (List Pins)
  | [] => .ok []
  | cs :: rest =>
    match assembleLine mem cs with
    | .error e => .error e
    | .ok ps =>
      match assembleLines mem rest with
      | .error e => .error e
      | .ok qs => .ok (ps ++ qs)

/-- The edges of a program: "one command per line" (R55), but for a `BATCH` list over several lines (log 13). -/
def assemble (mem : List Host.Cell) (lines : List (List Char)) : Except AsmError (List Pins) :=
  assembleLines mem (joinLists lines [])

/-- A hexadecimal digit. -/
def hexDigit (v : BitVec 4) : Char :=
  if v.toNat < 10 then Char.ofNat (v.toNat + 48) else Char.ofNat (v.toNat + 55)

/-- A byte as `0x` and two digits (R55: "`0x00` to `0xFF`"). -/
def byteText (b : Byte) : List Char :=
  ['0', 'x', hexDigit (b.extractLsb' 4 4), hexDigit (b.extractLsb' 0 4)]

/-- The text of a command (R55). -/
def textOf : Instr → List Char
  | .initdef => "INITDEF".toList
  | .initcus poly init xorout =>
    "INITCUS ".toList ++ byteText poly ++ [',', ' '] ++ byteText init ++ [',', ' '] ++ byteText xorout
  | .push b => "PUSH ".toList ++ byteText b
  | .reset => "RESET".toList
  | .get => "GET".toList

end Sys2Proof.Machine
end

