-- ==== Sys2Proof/Machine/Platform.lean ====
section
/-! DEFINITION. Several engines: "Each has its own registers, ports and reset" and "none shares state with another, none can
signal another" (spec/60_exceptions.md R89, 00_scope.md R7). Log 16. -/

namespace Sys2Proof.Machine

/-- One engine of a platform: it runs, or its own run has ended (R80: the fault is kept for the rest of the run). -/
inductive Engine
  | running (s : State)
  | faulted (why : Fault)
  | refused (why : Refusal)
  deriving DecidableEq, Repr

/-- What an engine is after one rising edge of its clock. A stopped engine stays as it is: its fault is never cleared
(R80, R84). -/
def engineStep : Engine → Engine
  | .running s =>
    match step s with
    | .next t => .running t
    | .fault f => .faulted f
    | .refused r => .refused r
  | .faulted f => .faulted f
  | .refused r => .refused r

/-- Any number of engines, each with its own state and its own host. -/
abbrev Platform := List Engine

/-- One rising edge of the clock of engine `k`; the others do not move. DESIGN CHOICE (log 16): the spec does not say what
`UninitializedUse` of one engine does to the run of another, and here it ends the run of engine `k` alone. Where there is no
engine `k`, nothing moves. -/
def stepEngine (k : Nat) (engines : Platform) : Platform :=
  engines.modify k engineStep

/-- Edges of several engines in a given order, each named by its engine. -/
def stepEngines (schedule : List Nat) (engines : Platform) : Platform :=
  schedule.foldl (fun es k => stepEngine k es) engines

end Sys2Proof.Machine
end

