-- ==== Sys2Proof/Machine/Run.lean ====
section
/-! DEFINITION. Runs: a start state and a finite list of host actions, one per rising edge, with what the host observes
(spec/70_reset_and_hazards.md R104), and the host's other moves: reading an output (R105) and removing power
(60_exceptions.md R91). -/

namespace Sys2Proof.Machine

/-- Go on after an outcome; a fault is kept (R80). -/
def andThen (o : Host.Outcome State Fault Refusal) (go : State → Host.Outcome State Fault Refusal) :
    Host.Outcome State Fault Refusal :=
  match o with
  | .next s => go s
  | .fault r => .fault r
  | .refused r => .refused r

/-- The edges of a list of inputs, in order (R104). -/
def edges : List Pins → State → Host.Outcome State Fault Refusal
  | [], s => .next s
  | p :: ps, s => andThen (edge p s) (edges ps)

/-- One response, as the host samples it in its one valid cycle (R97). -/
structure Response where
  data : Byte
  err  : Bool
  deriving DecidableEq, Repr

/-- The response valid in the cycle after an edge, if there is one (R97). -/
def responseNow (s : State) : List Response :=
  if s.respValid then [{ data := s.respData, err := s.respErr }] else []

/-- The responses of a run, one per command, in order (R104); a fault ends them. -/
def responses : List Pins → State → List Response
  | [], _ => []
  | p :: ps, s =>
    match edge p s with
    | .next t => responseNow t ++ responses ps t
    | .fault _ => []
    | .refused _ => []

/-- The four registers of the engine (R18). -/
structure Registers where
  poly   : Byte
  init   : Byte
  xorout : Byte
  acc    : Byte
  deriving DecidableEq, Repr

/-- The four registers in a state. -/
def registers (s : State) : Registers :=
  { poly := s.poly, init := s.init, xorout := s.xorout, acc := s.acc }

/-- The state an outcome goes on to. -/
def finalState : Host.Outcome State Fault Refusal → Option State
  | .next s => some s
  | .fault _ => none
  | .refused _ => none

/-- The fault an outcome records. -/
def recordedFault : Host.Outcome State Fault Refusal → Option Fault
  | .next _ => none
  | .fault f => some f
  | .refused _ => none

/-- The value of `crc_out` where the phase lets the host read it (R28, R80). -/
def visibleCrcOut (s : State) : Option Byte :=
  match readCrcOut s with
  | .ok v => some v
  | .error _ => none

/-- The observation of a run (R104). -/
structure Observation where
  responses : List Response
  crcOut    : Option Byte
  fault     : Option Fault
  registers : Option Registers
  deriving DecidableEq, Repr

/-- What R104 says is observed of a run. The registers are named only in phase READY (R24). -/
def observe (ps : List Pins) (s : State) : Observation :=
  { responses := responses ps s
    crcOut := (finalState (edges ps s)).bind visibleCrcOut
    fault := recordedFault (edges ps s)
    registers := (finalState (edges ps s)).bind fun t =>
      match t.phase with
      | .uninit => none
      | .ready => some (Machine.registers t) }

/-- A move of the host or its platform: an edge, a read of an output (R105), power removed and given back (R91). -/
inductive HostMove
  | edge (p : Pins)
  | read (o : Output)
  | powerCycle
  deriving DecidableEq, Repr

/-- One move. -/
def move : HostMove → State → Host.Outcome State Fault Refusal
  | .edge p, s => edge p s
  | .read o, s => sample o s
  | .powerCycle, s => .next (powerCycle s)

/-- The edges among the moves, in order. -/
def edgeInputs : List HostMove → List Pins
  | [] => []
  | .edge p :: ms => p :: edgeInputs ms
  | .read _ :: ms => edgeInputs ms
  | .powerCycle :: ms => edgeInputs ms

/-- The moves of a list, in order; a recorded fault is never cleared (R80). -/
def moves : List HostMove → State → Host.Outcome State Fault Refusal
  | [], s => .next s
  | m :: ms, s => andThen (move m s) (moves ms)

end Sys2Proof.Machine
end

