-- ==== Sys2Proof/Safety.lean ====
section
/-! DEFINITION. What counts as a safe run: the boot requirement (spec/70_reset_and_hazards.md R94), a good end (R104), and
the invariant of the response register (R97, R98, R31). -/

namespace Sys2Proof

open Sys2Proof.Machine

/-- An idle cycle at the port (R98). -/
def Pins.isIdle (p : Pins) : Bool := !p.rst && !p.cmdValid

/-- Is a decoded word one of the two initialisers (R24)? -/
def isInitialiser : Decoded → Bool
  | .command .initdef => true
  | .command (.initcus _ _ _) => true
  | .command (.push _) => false
  | .command .reset => false
  | .command .get => false
  | .illegal _ => false

/-- An edge that brings the engine to READY from any phase: `rst`, or an initialiser (R94). -/
def Pins.initialises (p : Pins) : Bool :=
  p.rst || (p.cmdValid && isInitialiser (decode p.cmdWord))

/-- The boot requirement (R94): the first edge that is not idle initialises; an idle list asks nothing. -/
def bootsFirst : List Pins → Bool
  | [] => true
  | p :: ps => if p.isIdle then bootsFirst ps else p.initialises

/-- A run with a good end (R80, R104): no fault is recorded, and the final `crc_out` may be read. -/
def goodEnd (ps : List Pins) (s : State) : Bool :=
  match edges ps s with
  | .next t => t.phase == .ready
  | .fault _ => false
  | .refused _ => false

/-- The response register is coherent with the engine: in phase READY, `resp_data` is `result` of the registers (R97; idle
cycles keep both, R98), or the state is that of a hardware reset, with the response register cleared (R31). -/
def ResponseCoherent (s : State) : Prop :=
  s.phase = .ready → s.respData = result s ∨ s = { State.reset with host := s.host }

end Sys2Proof
end

