-- ==== Sys2Proof/WellFormed.lean ====
section
/-! DEFINITION. Which command-word fields are well-formed, written from R52's three conditions and not from the decoder
(spec/30_encoding.md R47, R49, R52). A term of `Instr` needs no check: its operands are bytes, and R48 makes every byte
legal. -/

namespace Sys2Proof

/-- Not R52 (a): the opcode is assigned (R49). -/
def CW.opcodeAssigned (c : CW) : Bool :=
  c.OP == 0b001#3 || c.OP == 0b010#3 || c.OP == 0b011#3 || c.OP == 0b100#3 || c.OP == 0b101#3

/-- Not R52 (b): "reserved: must be zero for every opcode" (R47). -/
def CW.zZero (c : CW) : Bool := c.Z == 0#5

/-- Not R52 (c), for `INITDEF`, `RESET` and `GET`: "The fields of (c) are `A`, `B` and `C`". -/
def CW.noOperandFieldsZero (c : CW) : Bool :=
  !(c.OP == 0b001#3 || c.OP == 0b100#3 || c.OP == 0b101#3) || (c.A == 0#8 && c.B == 0#8 && c.C == 0#8)

/-- Not R52 (c), for `PUSH`: the fields are "`B` and `C`". -/
def CW.pushFieldsZero (c : CW) : Bool :=
  !(c.OP == 0b011#3) || (c.B == 0#8 && c.C == 0#8)

/-- None of R52 (a), (b), (c) holds. -/
def CW.wellFormed (c : CW) : Bool :=
  c.opcodeAssigned && c.zZero && c.noOperandFieldsZero && c.pushFieldsZero

end Sys2Proof
end

