-- ==== Sys2Proof/Certificates/Slice0/Obligations.lean ====
section
/-! DEFINITION. The statements for the provers, each from the rules its docstring names. -/

open Sys2Proof Sys2Proof.Machine

/-! ## Reset, power-up and the phase -/

/-- R31: the table of the hardware-reset state, `crc_out` included; an edge with `rst = 1` leaves it; it is the state of
`INITDEF` but for the response register; before it the phase is UNINIT. The host's pending inputs are the model's own field
(log 1). -/
def Obligations.HardwareResetState : Prop :=
  State.reset.poly = 0xB7#8 ∧ State.reset.init = 0xFF#8 ∧ State.reset.xorout = 0x00#8 ∧ State.reset.acc = 0xFF#8 ∧
  State.reset.phase = .ready ∧ State.reset.respValid = false ∧ State.reset.respData = 0x00#8 ∧
  State.reset.respErr = false ∧ readCrcOut State.reset = .ok 0xFF#8 ∧
  (∀ (p : Pins) (s : State), p.rst = true → edge p s = .next { State.reset with host := s.host }) ∧
  (∀ s : State, exec .initdef s =
    .next { State.reset with respValid := true, respData := 0xFF#8, respErr := false, host := s.host }) ∧
  State.powerUp.phase = .uninit

/-- R92: one edge with `rst = 1` is enough, whatever the other inputs, the state and the phase; every further one repeats
the reset; no edge of them gives a response; the state is that of `INITDEF` with the response register cleared. -/
def Obligations.HardwareResetEdges : Prop :=
  (∀ (ps : List Pins) (s : State), ps ≠ [] → (∀ p ∈ ps, p.rst = true) →
    edges ps s = .next { poly := 0xB7#8, init := 0xFF#8, xorout := 0x00#8, acc := 0xFF#8, phase := .ready,
                         respValid := false, respData := 0x00#8, respErr := false, host := s.host } ∧
    responses ps s = []) ∧
  (∀ (p : Pins) (s t : State), p.rst = true → exec .initdef s = .next t →
    edge p s = .next { t with respValid := false, respData := 0x00#8, respErr := false })

/-- R93, R91: power-up is phase UNINIT whatever stood before, and the first edge that applies `rst`, `INITDEF` or `INITCUS`
ends it. The list the host keeps over it is log 19. -/
def Obligations.PowerUpIsUninit : Prop :=
  (∀ s : State, (powerCycle s).phase = .uninit ∧ (powerCycle s).host = s.host) ∧
  (∀ (p : Pins) (s t : State), edge p (powerCycle s) = .next t → (t.phase = .ready ↔ p.initialises = true)) ∧
  (∀ (p : Pins) (s : State), p.initialises = true → ∃ t, edge p (powerCycle s) = .next t ∧ t.phase = .ready)

/-- R24: what sets the phase, that nothing sets it back, and that in UNINIT every command but the initialisers, and every
read of `crc_out`, faults. -/
def Obligations.PhaseOnlyLeavesUninit : Prop :=
  State.powerUp.phase = .uninit ∧
  (∀ (p : Pins) (s t : State), s.phase = .ready → edge p s = .next t → t.phase = .ready) ∧
  (∀ (p : Pins) (s : State), p.rst = true → ∃ t, edge p s = .next t ∧ t.phase = .ready) ∧
  (∀ s : State, ∃ t, exec .initdef s = .next t ∧ t.phase = .ready) ∧
  (∀ (poly init xorout : Byte) (s : State), ∃ t, exec (.initcus poly init xorout) s = .next t ∧ t.phase = .ready) ∧
  (∀ s : State, s.phase = .uninit →
    (∀ b, exec (.push b) s = .fault (.uninitializedUse (.command (.push b)))) ∧
    exec .reset s = .fault (.uninitializedUse (.command .reset)) ∧
    exec .get s = .fault (.uninitializedUse (.command .get)) ∧
    (∀ w why, decode w = .illegal why → executeWord w s = .fault (.uninitializedUse (.illegalWord w))) ∧
    readCrcOut s = .error (.uninitializedUse (.read .crcOut)))

/-- R80: in UNINIT `PUSH`, `RESET`, `GET`, every illegal word and every observation of an output raise
`UninitializedUse`; the fault is kept whatever moves follow; a run that holds it has no good end. -/
def Obligations.UninitializedUseIsKept : Prop :=
  (∀ (w : Word) (s : State), s.phase = .uninit → isInitialiser (decode w) = false →
    executeWord w s = .fault (.uninitializedUse (match decode w with
      | .command i => .command i
      | .illegal _ => .illegalWord w))) ∧
  (∀ s : State, s.phase = .uninit →
    readCrcOut s = .error (.uninitializedUse (.read .crcOut)) ∧
    readRespValid s = .error (.uninitializedUse (.read .respValid)) ∧
    readRespData s = .error (.uninitializedUse (.read .respData)) ∧
    readRespErr s = .error (.uninitializedUse (.read .respErr)) ∧
    ∀ o, sample o s = .fault (.uninitializedUse (.read o))) ∧
  (∀ (ms ms' : List HostMove) (s : State) (f : Fault), moves ms s = .fault f → moves (ms ++ ms') s = .fault f) ∧
  (∀ (ps : List Pins) (s : State) (f : Fault), recordedFault (edges ps s) = some f → goodEnd ps s = false)

/-- R8, R24: no observation of any run depends on what the registers and outputs hold in phase UNINIT: two engines in UNINIT
show the host the same responses, the same fault, the same final `crc_out` and, once READY, the same registers. That a run
which ends in UNINIT shows no `crc_out` and no registers, and has no good end, is the model's reading (log 9, DEDUCED). -/
def Obligations.PowerUpContentsNeverSeen : Prop :=
  ∀ (ps : List Pins) (s t : State), s.phase = .uninit → t.phase = .uninit →
    observe ps s = observe ps t ∧ goodEnd ps s = goodEnd ps t

/-- R94, R80: from UNINIT a run records no fault exactly when its first edge that is not idle resets or initialises, and it
has a good end exactly when, besides, it has such an edge. That an idle edge in UNINIT is no fault is log 7 (DEDUCED), and
that a run which stays in UNINIT has no good end is log 9 (DEDUCED). -/
def Obligations.BootRequirementIsExact : Prop :=
  ∀ (ps : List Pins) (s : State), s.phase = .uninit →
    (recordedFault (edges ps s) = none ↔ bootsFirst ps = true) ∧
    (goodEnd ps s = true ↔ bootsFirst ps = true ∧ ∃ p ∈ ps, p.initialises = true)

/-! ## The step -/

/-- The step is one edge with the host's next inputs; when they present a legal word it is `exec` of the decoded command, an
illegal word `execIllegal`; with nothing pending it is an idle edge (log 2); `withFetchWord` makes the next step run its
word (log 5). -/
def Obligations.StepRunsDecodedCommand : Prop :=
  (∀ (s : State) (p : Pins) (rest : List Pins), s.host = p :: rest → step s = edge p { s with host := rest }) ∧
  (∀ s : State, s.host = [] → step s = .next { s with respValid := false }) ∧
  (∀ (s : State) (p : Pins) (rest : List Pins) (i : Instr), s.host = p :: rest → p.rst = false → p.cmdValid = true →
    decode p.cmdWord = .command i → step s = exec i { s with host := rest }) ∧
  (∀ (s : State) (p : Pins) (rest : List Pins) (why : Illegal), s.host = p :: rest → p.rst = false →
    p.cmdValid = true → decode p.cmdWord = .illegal why → step s = execIllegal p.cmdWord { s with host := rest }) ∧
  (∀ (s : State) (nbits w : Nat) (i : Instr), decodeTableWord nbits w = some i →
    step (s.withFetchWord nbits w) = exec i { s with host := s.host.tail })

/-- R82: the five checks of one edge, in order, only the first that applies taking effect. -/
def Obligations.EdgePriority : Prop :=
  ∀ (p : Pins) (s : State),
    (p.rst = true → edge p s = .next { State.reset with host := s.host }) ∧
    (p.rst = false → p.cmdValid = false → edge p s = .next { s with respValid := false }) ∧
    (p.rst = false → p.cmdValid = true → s.phase = .uninit → isInitialiser (decode p.cmdWord) = false →
      ∃ use, edge p s = .fault (.uninitializedUse use)) ∧
    (p.rst = false → p.cmdValid = true → s.phase = .ready → (∃ why, decode p.cmdWord = .illegal why) →
      edge p s = .next { s with respValid := true, respData := s.acc ^^^ s.xorout, respErr := true }) ∧
    (p.rst = false → p.cmdValid = true → ∀ i, decode p.cmdWord = .command i →
      (s.phase = .ready ∨ isInitialiser (.command i) = true) →
      edge p s = exec i s ∧ ∃ t, exec i s = .next t ∧ t.respErr = false)

/-- R95: `exec(S, w)` case by case, and total on all words in phase READY. -/
def Obligations.WordTransition : Prop :=
  (∀ (w : Word) (s : State), s.phase = .uninit → isInitialiser (decode w) = false →
    ∃ use, executeWord w s = .fault (.uninitializedUse use)) ∧
  (∀ (w : Word) (s : State), (s.phase = .ready ∨ isInitialiser (decode w) = true) →
    executeWord w s = match decode w with
      | .command .initdef => execInitdef s
      | .command (.initcus poly init xorout) => execInitcus poly init xorout s
      | .command (.push b) => execPush b s
      | .command .reset => execReset s
      | .command .get => execGet s
      | .illegal _ => execIllegal w s) ∧
  (∀ (w : Word) (s : State), s.phase = .ready → ∃ t, executeWord w s = .next t ∧ t.phase = .ready)

/-- R96: the three things an edge does, and what it stores in the response register. -/
def Obligations.ClockEdge : Prop :=
  (∀ (p : Pins) (s : State), p.rst = true → edge p s = .next { State.reset with host := s.host }) ∧
  (∀ (p : Pins) (s : State), p.rst = false → p.cmdValid = true → edge p s = executeWord p.cmdWord s) ∧
  (∀ (w : Word) (s t : State), executeWord w s = .next t →
    t.respValid = true ∧ t.respData = t.acc ^^^ t.xorout ∧ (t.respErr = true ↔ ∃ why, decode w = .illegal why)) ∧
  (∀ (p : Pins) (s : State), p.rst = false → p.cmdValid = false → edge p s = .next { s with respValid := false })

/-- R97: in the cycle after a command's edge its response is valid and `crc_out` equals it; the next edge overwrites it by
the next command's response, by `resp_valid <- 0`, or by the reset values. -/
def Obligations.ResponseTiming : Prop :=
  ∀ (p : Pins) (s t : State), p.rst = false → p.cmdValid = true → edge p s = .next t →
    t.respValid = true ∧ readRespData t = .ok (t.acc ^^^ t.xorout) ∧ readCrcOut t = .ok t.respData ∧
    (t.respErr = true ↔ ∃ why, decode p.cmdWord = .illegal why) ∧
    ∀ (q : Pins) (u : State), edge q t = .next u →
      (q.rst = true → u.respValid = false ∧ u.respData = 0x00#8 ∧ u.respErr = false) ∧
      (q.rst = false → q.cmdValid = false →
        u.respValid = false ∧ u.respData = t.respData ∧ u.respErr = t.respErr) ∧
      (q.rst = false → q.cmdValid = true →
        u.respValid = true ∧ u.respData = u.acc ^^^ u.xorout ∧
        (u.respErr = true ↔ ∃ why, decode q.cmdWord = .illegal why))

/-- R98: an idle edge changes no engine register, drops `resp_valid` and keeps the rest, whatever `cmd_word` holds; idle
cycles anywhere, in any number, change no response, no fault and no final register. -/
def Obligations.IdleCyclesChangeNoResult : Prop :=
  (∀ (w : Word) (s : State),
    edge { rst := false, cmdValid := false, cmdWord := w } s = .next { s with respValid := false }) ∧
  (∀ (ps : List Pins) (s : State),
    responses ps s = responses (ps.filter fun p => !p.isIdle) s ∧
    recordedFault (edges ps s) = recordedFault (edges (ps.filter fun p => !p.isIdle) s) ∧
    (finalState (edges ps s)).map (fun t => (registers t, t.phase)) =
      (finalState (edges (ps.filter fun p => !p.isIdle) s)).map (fun t => (registers t, t.phase)))

/-- R41, R99: a command at the very next edge sees the full effect of the one before: any two commands in a row are the
second's `exec` from the state the first leaves, and in particular `PUSH` right after `INITCUS`, `INITDEF` or hardware reset,
`GET`, `RESET` and `PUSH` right after `PUSH`, and `PUSH` right after `RESET` or an illegal word, each with its whole final
state. -/
def Obligations.NextCommandSeesFullEffect : Prop :=
  (∀ (i j : Instr) (s : State), edges [Pins.command i, Pins.command j] s = andThen (exec i s) (exec j)) ∧
  (∀ (p i x b : Byte) (s : State), edges [Pins.command (.initcus p i x), Pins.command (.push b)] s =
    .next { poly := p, init := i, xorout := x, acc := crc8Step p i b, phase := .ready, respValid := true,
            respData := crc8Step p i b ^^^ x, respErr := false, host := s.host }) ∧
  (∀ (q : Pins) (b : Byte) (s : State), q = Pins.command .initdef ∨ q.rst = true →
    edges [q, Pins.command (.push b)] s =
      .next { poly := 0xB7#8, init := 0xFF#8, xorout := 0x00#8, acc := crc8Step 0xB7#8 0xFF#8 b, phase := .ready,
              respValid := true, respData := crc8Step 0xB7#8 0xFF#8 b, respErr := false, host := s.host }) ∧
  (∀ (b c : Byte) (w : Word) (why : Illegal) (s : State), s.phase = .ready → decode w = .illegal why →
    edges [Pins.command (.push b), Pins.command .get] s =
      .next { s with acc := crc8Step s.poly s.acc b, respValid := true,
                     respData := crc8Step s.poly s.acc b ^^^ s.xorout, respErr := false } ∧
    edges [Pins.command (.push b), Pins.command .reset] s =
      .next { s with acc := s.init, respValid := true, respData := s.init ^^^ s.xorout, respErr := false } ∧
    edges [Pins.command (.push b), Pins.command (.push c)] s =
      .next { s with acc := crc8Step s.poly (crc8Step s.poly s.acc b) c, respValid := true,
                     respData := crc8Step s.poly (crc8Step s.poly s.acc b) c ^^^ s.xorout, respErr := false } ∧
    edges [Pins.command .reset, Pins.command (.push b)] s =
      .next { s with acc := crc8Step s.poly s.init b, respValid := true,
                     respData := crc8Step s.poly s.init b ^^^ s.xorout, respErr := false } ∧
    edges [Pins.word w, Pins.command (.push b)] s =
      .next { s with acc := crc8Step s.poly s.acc b, respValid := true,
                     respData := crc8Step s.poly s.acc b ^^^ s.xorout, respErr := false })

/-- R104: the machine behind the host's interface, run as many steps as the host's list is long, does the edges of that
list. -/
def Obligations.CoreRunIsTheHostsEdges : Prop :=
  ∀ (ps rest : List Pins) (s : State),
    Host.Core.run Sys2Proof.core ps.length { s with host := ps ++ rest } = edges ps { s with host := rest }

/-- R95, R97: in phase READY every list of inputs runs to its end without a fault or a refusal, stays READY, and gives one
response per accepted command. -/
def Obligations.ReadyRunsNeverStop : Prop :=
  ∀ (ps : List Pins) (s : State), s.phase = .ready →
    (∃ t, edges ps s = .next t ∧ t.phase = .ready) ∧
    (responses ps s).length = (ps.filter fun p => !p.rst && p.cmdValid).length

/-- R97, R98, R31: every step keeps the response register coherent with the engine: in phase READY `resp_data` is
`acc XOR xorout`, or the state is that of a hardware reset. -/
def Obligations.StepKeepsResponseCoherent : Prop :=
  ∀ s t : State, ResponseCoherent s → step s = .next t → ResponseCoherent t

/-- The states right after reset and at power-up meet the invariant of `StepKeepsResponseCoherent`. -/
def Obligations.ResetIsResponseCoherent : Prop :=
  ResponseCoherent State.reset ∧ ∀ s : State, ResponseCoherent (powerCycle s)

/-- R78: an accepted word has exactly one of three outcomes, with the code and the recorded value of the table; it is never
refused. -/
def Obligations.OutcomesOfAcceptedWord : Prop :=
  ∀ (w : Word) (s : State),
    (∀ i, decode w = .command i → (s.phase = .ready ∨ isInitialiser (.command i) = true) →
      ∃ t, executeWord w s = .next t ∧ t.respErr = false ∧ t.respData = t.acc ^^^ t.xorout) ∧
    (∀ why, decode w = .illegal why → s.phase = .ready →
      ∃ t, executeWord w s = .next t ∧ t.respErr = true ∧ registers t = registers s ∧ t.respData = s.acc ^^^ s.xorout) ∧
    (s.phase = .uninit → isInitialiser (decode w) = false →
      executeWord w s = .fault (.uninitializedUse (match decode w with
        | .command i => .command i
        | .illegal _ => .illegalWord w))) ∧
    (∀ o, s.phase = .uninit → sample o s = .fault (.uninitializedUse (.read o))) ∧
    (∀ r, executeWord w s ≠ .refused r)

/-- R79: an illegal word in UNINIT faults; in READY it writes no engine register and responds with `resp_err = 1`; the next
command runs as if it had not been issued, and clears the error. -/
def Obligations.IllegalWordRule : Prop :=
  (∀ (w : Word) (s : State), s.phase = .uninit → execIllegal w s = .fault (.uninitializedUse (.illegalWord w))) ∧
  (∀ (w : Word) (s : State), s.phase = .ready →
    execIllegal w s = .next { s with respValid := true, respData := s.acc ^^^ s.xorout, respErr := true }) ∧
  (∀ (w : Word) (i : Instr) (s t : State), execIllegal w s = .next t →
    exec i t = exec i s ∧ ∃ u, exec i t = .next u ∧ u.respErr = false)

/-! ## Commands -/

/-- R59: `INITDEF`, whole: its word, its effect in every phase, that twice is once, and that it leaves the registers and the
phase of a hardware reset. -/
def Obligations.InitdefRule : Prop :=
  encode .initdef = 0x00000001#32 ∧ decode 0x00000001#32 = .command .initdef ∧
  (∀ s : State, exec .initdef s =
    .next { s with poly := 0xB7#8, init := 0xFF#8, xorout := 0x00#8, acc := 0xFF#8, phase := .ready,
                   respValid := true, respData := 0xFF#8, respErr := false }) ∧
  (∀ s t : State, exec .initdef s = .next t → exec .initdef t = .next t) ∧
  (∀ s t : State, exec .initdef s = .next t → registers t = registers State.reset ∧ t.phase = State.reset.phase)

/-- R60: `INITCUS`, whole: its operands bit for bit, its effect for every operand and in every phase, that twice is once,
the polynomial 0, `i = x`, the default operands, and the worked example. -/
def Obligations.InitcusRule : Prop :=
  (∀ w : Word, w &&& 0x000000FF#32 = 0x00000002#32 →
    decode w = .command (.initcus (w.extractLsb' 8 8) (w.extractLsb' 16 8) (w.extractLsb' 24 8))) ∧
  (∀ (p i x : Byte) (s : State), exec (.initcus p i x) s =
    .next { s with poly := p, init := i, xorout := x, acc := i, phase := .ready,
                   respValid := true, respData := i ^^^ x, respErr := false }) ∧
  (∀ (p i x : Byte) (s t : State), exec (.initcus p i x) s = .next t → exec (.initcus p i x) t = .next t) ∧
  (∀ (i x : Byte) (s : State) (bytes : List Byte), bytes ≠ [] →
    ∃ t, edges (Pins.command (.initcus 0x00#8 i x) :: pushPins bytes) s = .next t ∧ t.acc = 0x00#8) ∧
  (∀ (p i : Byte) (s : State), ∃ t, exec (.initcus p i i) s = .next t ∧ t.respData = 0x00#8) ∧
  (∀ s : State, exec (.initcus 0xB7#8 0xFF#8 0x00#8) s = exec .initdef s) ∧
  encode (.initcus 0x07#8 0x00#8 0xFF#8) = 0xFF000702#32

/-- R65: `PUSH`, whole: its operand, its effect, its fault in UNINIT, the corner cases (a) to (f) and the worked example with
its eight stages. -/
def Obligations.PushRule : Prop :=
  (∀ w : Word, w &&& 0xFFFF00FF#32 = 0x00000003#32 → decode w = .command (.push (w.extractLsb' 8 8))) ∧
  (∀ (b : Byte) (s : State), s.phase = .uninit →
    exec (.push b) s = .fault (.uninitializedUse (.command (.push b)))) ∧
  (∀ (b : Byte) (s : State), s.phase = .ready → exec (.push b) s =
    .next { s with acc := crc8Step s.poly s.acc b, respValid := true,
                   respData := crc8Step s.poly s.acc b ^^^ s.xorout, respErr := false }) ∧
  (∀ p a : Byte, crc8Step p a a = 0x00#8) ∧
  (∀ p a : Byte, crc8Step p a 0x00#8 = (stage p)^[8] a) ∧ crc8Step 0xB7#8 0xFF#8 0x00#8 = 0xAD#8 ∧
  (∀ a b : Byte, crc8Step 0x00#8 a b = 0x00#8) ∧
  (∀ p a b : Byte, a ^^^ b = 0x80#8 → crc8Step p a b = column p 7) ∧ column 0xB7#8 7 = 0xA0#8 ∧
  (∀ p a b : Byte, a ^^^ b = 0x01#8 → crc8Step p a b = p ∧ column p 0 = p) ∧
  (∀ (b : Byte) (s : State) (o : Output), s.phase = .ready →
    andThen (sample o s) (exec (.push b)) = exec (.push b) s) ∧
  encode (.push 0x12#8) = 0x00001203#32 ∧ crc8Step 0xB7#8 0xFF#8 0x12#8 = 0x60#8 ∧
  (List.range 9).map (fun k => (stage 0xB7#8)^[k] (0xFF#8 ^^^ 0x12#8)) =
    [0xED#8, 0x6D#8, 0xDA#8, 0x03#8, 0x06#8, 0x0C#8, 0x18#8, 0x30#8, 0x60#8]

/-- R70: `RESET`, whole: its word, its effect, its fault in UNINIT, that right after an initialiser or another `RESET` it
changes nothing, and the worked examples. -/
def Obligations.ResetRule : Prop :=
  encode .reset = 0x00000004#32 ∧ decode 0x00000004#32 = .command .reset ∧
  (∀ s : State, s.phase = .uninit → exec .reset s = .fault (.uninitializedUse (.command .reset))) ∧
  (∀ s : State, s.phase = .ready → exec .reset s =
    .next { s with acc := s.init, respValid := true, respData := s.init ^^^ s.xorout, respErr := false }) ∧
  (∀ (i : Instr) (s t : State), i = .reset ∨ isInitialiser (.command i) = true → exec i s = .next t →
    exec .reset t = .next t) ∧
  (∀ s : State, s.phase = .ready → registers s = ⟨0xB7#8, 0xFF#8, 0x00#8, 0x03#8⟩ →
    ∃ t, exec .reset s = .next t ∧ t.acc = 0xFF#8 ∧ t.respData = 0xFF#8) ∧
  (∀ s : State, s.phase = .ready → s.init = 0x00#8 → s.xorout = 0xFF#8 →
    ∃ t, exec .reset s = .next t ∧ t.acc = 0x00#8 ∧ t.respData = 0xFF#8)

/-- R71: `GET`, whole: its word, its effect, its fault in UNINIT, that again is the same, that it repeats the response of a
`PUSH`, the two masks, `crc_out`, and the worked example. -/
def Obligations.GetRule : Prop :=
  encode .get = 0x00000005#32 ∧ decode 0x00000005#32 = .command .get ∧
  (∀ s : State, s.phase = .uninit → exec .get s = .fault (.uninitializedUse (.command .get))) ∧
  (∀ s : State, s.phase = .ready → exec .get s =
    .next { s with respValid := true, respData := s.acc ^^^ s.xorout, respErr := false }) ∧
  (∀ s t : State, exec .get s = .next t → exec .get t = .next t) ∧
  (∀ (b : Byte) (s t : State), exec (.push b) s = .next t → exec .get t = .next t) ∧
  (∀ s t : State, exec .get s = .next t →
    (s.xorout = 0x00#8 → t.respData = s.acc) ∧ (s.xorout = 0xFF#8 → t.respData = ~~~s.acc) ∧
    readCrcOut s = .ok t.respData) ∧
  (∀ s : State, s.phase = .ready → s.acc = 0xB6#8 → s.xorout = 0xFF#8 →
    ∃ t, exec .get s = .next t ∧ t.respData = 0x49#8)

/-- The frame of the commands: what each leaves unchanged when it answers a next state. No command touches the host's
pending inputs; there is no memory and no flag but `resp_err`. -/
def Obligations.CommandFrames : Prop :=
  ∀ s t : State,
    (∀ i, exec i s = .next t → t.host = s.host ∧ t.phase = .ready ∧ t.respValid = true ∧ t.respErr = false ∧
      t.respData = t.acc ^^^ t.xorout) ∧
    (∀ b, exec (.push b) s = .next t → t.poly = s.poly ∧ t.init = s.init ∧ t.xorout = s.xorout) ∧
    (exec .reset s = .next t → t.poly = s.poly ∧ t.init = s.init ∧ t.xorout = s.xorout) ∧
    (exec .get s = .next t → t.poly = s.poly ∧ t.init = s.init ∧ t.xorout = s.xorout ∧ t.acc = s.acc) ∧
    (∀ w, execIllegal w s = .next t → t.poly = s.poly ∧ t.init = s.init ∧ t.xorout = s.xorout ∧ t.acc = s.acc ∧
      t.phase = s.phase ∧ t.host = s.host)

/-- R23: over every edge, the configuration changes only by `rst`, `INITDEF` and `INITCUS`, and each of them writes all
three registers. -/
def Obligations.ConfigurationWriters : Prop :=
  ∀ (p : Pins) (s t : State), edge p s = .next t →
    (p.rst = true → t.poly = 0xB7#8 ∧ t.init = 0xFF#8 ∧ t.xorout = 0x00#8) ∧
    (p.rst = false → p.cmdValid = true → decode p.cmdWord = .command .initdef →
      t.poly = 0xB7#8 ∧ t.init = 0xFF#8 ∧ t.xorout = 0x00#8) ∧
    (p.rst = false → p.cmdValid = true → ∀ poly init xorout, decode p.cmdWord = .command (.initcus poly init xorout) →
      t.poly = poly ∧ t.init = init ∧ t.xorout = xorout) ∧
    (p.initialises = false → t.poly = s.poly ∧ t.init = s.init ∧ t.xorout = s.xorout)

/-- R19, over every edge: what each writes into `acc`; no edge writes another value. -/
def Obligations.AccumulatorWriters : Prop :=
  ∀ (p : Pins) (s t : State), edge p s = .next t →
    (p.rst = true → t.acc = 0xFF#8) ∧
    (p.rst = false → p.cmdValid = true → isInitialiser (decode p.cmdWord) = true → t.acc = t.init) ∧
    (p.rst = false → p.cmdValid = true → decode p.cmdWord = .command .reset → t.acc = s.init) ∧
    (p.rst = false → p.cmdValid = true → ∀ b, decode p.cmdWord = .command (.push b) →
      t.acc = crc8Step s.poly s.acc b) ∧
    (p.initialises = false → (p.cmdValid = true → decode p.cmdWord ≠ .command .reset ∧
      ∀ b, decode p.cmdWord ≠ .command (.push b)) → t.acc = s.acc)

/-- R26, over every edge: `resp_err` says whether the accepted word was illegal, is not sticky, holds over an idle edge, and
is 0 after reset. -/
def Obligations.ErrorBitIsNotSticky : Prop :=
  State.reset.respErr = false ∧
  ∀ (p : Pins) (s t : State), edge p s = .next t →
    (p.rst = true → t.respErr = false) ∧
    (p.rst = false → p.cmdValid = false → t.respErr = s.respErr) ∧
    (p.rst = false → p.cmdValid = true → (t.respErr = true ↔ ∃ why, decode p.cmdWord = .illegal why))

/-- R28: `crc_out` is `acc XOR xorout` of the current registers, reading it changes nothing, and it changes only with `acc`
or `xorout`, at an edge that executes a command or a hardware reset. -/
def Obligations.CrcOutRule : Prop :=
  ∀ s : State, s.phase = .ready →
    readCrcOut s = .ok (s.acc ^^^ s.xorout) ∧ sample .crcOut s = .next s ∧
    ∀ (p : Pins) (t : State), edge p s = .next t → readCrcOut t ≠ readCrcOut s →
      (t.acc ≠ s.acc ∨ t.xorout ≠ s.xorout) ∧ (p.rst = true ∨ p.cmdValid = true)

/-- R38: sampling an output changes no state; `GET`, `RESET`, `INITDEF` and `INITCUS` are idempotent; `PUSH` is not. -/
def Obligations.ReadsAndIdempotentCommands : Prop :=
  (∀ (o : Output) (s : State), s.phase = .ready → sample o s = .next s) ∧
  (∀ s t : State, exec .get s = .next t → registers t = registers s ∧ exec .get t = .next t) ∧
  (∀ s t : State, exec .reset s = .next t → exec .reset t = .next t) ∧
  (∀ s t : State, exec .initdef s = .next t → exec .initdef t = .next t) ∧
  (∀ (p i x : Byte) (s t : State), exec (.initcus p i x) s = .next t → exec (.initcus p i x) t = .next t) ∧
  (∃ (b : Byte) (s t : State), exec (.push b) s = .next t ∧ exec (.push b) t ≠ .next t)

/-- R30, R38: a run in phase READY is the same whatever outputs the host reads in between, and its final registers are the
same without its `GET`s. -/
def Obligations.ReadingNeverMatters : Prop :=
  (∀ (ms : List HostMove) (s : State), s.phase = .ready → (∀ m ∈ ms, m ≠ .powerCycle) →
    moves ms s = edges (edgeInputs ms) s) ∧
  (∀ (ps : List Pins) (s : State), s.phase = .ready →
    (finalState (edges ps s)).map registers =
      (finalState (edges (ps.filter fun p => !(!p.rst && p.cmdValid && decide (decode p.cmdWord = .command .get))) s)).map
        registers)

/-- R72: `GET` after `RESET` gives `init XOR xorout` whatever came before, and `GET`, `GET` gives two equal responses and
leaves the registers. -/
def Obligations.ResetGetLaws : Prop :=
  ∀ s : State, s.phase = .ready →
    (∃ t, andThen (exec .reset s) (exec .get) = .next t ∧ t.acc = s.init ∧ t.respData = s.init ^^^ s.xorout) ∧
    (∃ t, exec .get s = .next t ∧ exec .get t = .next t ∧ registers t = registers s)

/-- R61: an initialiser, then any words that hold no initialiser, then one `RESET`, leaves the four registers of the
initialiser alone, from any state and phase. -/
def Obligations.ConfigurationReuse : Prop :=
  ∀ (i : Instr) (ws : List Word) (s : State), isInitialiser (.command i) = true →
    (∀ w ∈ ws, isInitialiser (decode w) = false) →
    ∃ t u, exec i s = .next t ∧
      edges (Pins.command i :: (ws.map Pins.word ++ [Pins.command .reset])) s = .next u ∧ registers u = registers t

/-! ## The byte step -/

/-- R62: one stage, with the shift of R10. -/
def Obligations.StageRule : Prop :=
  ∀ p x : Byte,
    (x.getLsbD 7 = true → stage p x = shl1 x ^^^ p) ∧ (x.getLsbD 7 = false → stage p x = shl1 x) ∧
    (shl1 x).toNat = 2 * x.toNat % 256

/-- R63: the byte XORed in, then exactly 8 stages. -/
def Obligations.ByteStepIsEightStages : Prop :=
  ∀ p a b : Byte, crc8Step p a b = (stage p)^[8] (a ^^^ b)

/-- R64: the linear form gives the byte step for every polynomial, accumulator and byte, and the columns of the two
configurations are those listed. -/
def Obligations.LinearFormIsByteStep : Prop :=
  (∀ p a b : Byte, crc8Linear p a b = crc8Step p a b) ∧ (∀ p x y : Byte, stage p (x ^^^ y) = stage p x ^^^ stage p y) ∧
  (List.range 8).map (column 0xB7#8) = [0xB7#8, 0xD9#8, 0x05#8, 0x0A#8, 0x14#8, 0x28#8, 0x50#8, 0xA0#8] ∧
  (List.range 8).map (column 0x07#8) = [0x07#8, 0x0E#8, 0x1C#8, 0x38#8, 0x70#8, 0xE0#8, 0xC7#8, 0x89#8]

/-- R66: with polynomial 0 a stage is the shift, a byte step gives 0, and after the first `PUSH` `acc` stays 0 and every
response is `xorout`. -/
def Obligations.DegeneratePolynomial : Prop :=
  (∀ x : Byte, stage 0x00#8 x = shl1 x) ∧ (∀ a b : Byte, crc8Step 0x00#8 a b = 0x00#8) ∧
  (∀ (s : State) (bytes : List Byte), s.phase = .ready → s.poly = 0x00#8 → bytes ≠ [] →
    ∃ t, edges (pushPins bytes) s = .next t ∧ t.acc = 0x00#8 ∧
      responses (pushPins bytes) s = List.replicate bytes.length ⟨s.xorout, false⟩)

/-- R68 items 1 to 3: the byte step depends on `acc XOR b`, is linear over GF(2), and takes 1 to the polynomial. -/
def Obligations.ByteStepIsLinear : Prop :=
  (∀ p a b : Byte, crc8Step p a b = byteFn p (a ^^^ b)) ∧
  (∀ p u v : Byte, byteFn p (u ^^^ v) = byteFn p u ^^^ byteFn p v) ∧ (∀ p : Byte, byteFn p 0x00#8 = 0x00#8) ∧
  (∀ p a b : Byte, crc8Step p a b = byteFn p a ^^^ byteFn p b) ∧ (∀ p : Byte, byteFn p 0x01#8 = p)

/-- R68 item 4: the byte function is a bijection exactly when bit 0 of the polynomial is set; where it is clear, every stage
output has bit 0 clear. -/
def Obligations.ByteStepBijectiveIffOddPolynomial : Prop :=
  (∀ p : Byte, Function.Bijective (byteFn p) ↔ p.getLsbD 0 = true) ∧
  (∀ p v : Byte, p.getLsbD 0 = false → (stage p v).getLsbD 0 = false)

/-- R68 item 5: the polynomial `v(x)` of a byte, over GF(2). -/
noncomputable def Sys2Proof.bytePoly (v : Byte) : Polynomial (ZMod 2) :=
  (Finset.range 8).sum fun i => if v.getLsbD i then Polynomial.X ^ i else 0

/-- R68 item 5: `G(x) = x^8 + p(x)`. -/
noncomputable def Sys2Proof.generatorPoly (p : Byte) : Polynomial (ZMod 2) :=
  Polynomial.X ^ 8 + bytePoly p

/-- The polynomial of a message, its first byte with the highest powers. -/
noncomputable def Sys2Proof.messagePoly : List Byte → Polynomial (ZMod 2)
  | [] => 0
  | b :: rest => bytePoly b * Polynomial.X ^ (8 * rest.length) + messagePoly rest

/-- R68 item 5: a stage is `x·v(x) mod G(x)`, a byte step `x^8·v(x) mod G(x)`, and after pushing a message from `a0` the
accumulator is the remainder of the message polynomial, with `a0` XORed into its first byte, times `x^8`, modulo `G(x)`. The
reading as polynomials is general knowledge in the spec (G2, log 21, PRESUMED). -/
def Obligations.AccumulatorIsPolynomialRemainder : Prop :=
  (∀ p v : Byte, bytePoly (stage p v) = (Polynomial.X * bytePoly v) %ₘ generatorPoly p) ∧
  (∀ p v : Byte, bytePoly (byteFn p v) = (Polynomial.X ^ 8 * bytePoly v) %ₘ generatorPoly p) ∧
  (∀ (s : State) (m : Byte) (rest : List Byte), s.phase = .ready →
    ∃ t, edges (pushPins (m :: rest)) s = .next t ∧
      bytePoly t.acc = (Polynomial.X ^ 8 * messagePoly ((s.acc ^^^ m) :: rest)) %ₘ generatorPoly s.poly)

/-! ## Data sets and Batch -/

/-- R69, R74: pushing bytes one at a time and their `BATCH` leave the same `acc`, the fold of the byte step in order; the
`BATCH` result is the `GET` after the pushes; each `PUSH` response is the result of the bytes so far. -/
def Obligations.PushBatchEquivalence : Prop :=
  ∀ (s : State) (bytes : List Byte), s.phase = .ready →
    ∃ t u, edges (pushPins bytes) s = .next t ∧ edges (batchPins bytes) s = .next u ∧
      exec .get t = .next u ∧ t.acc = u.acc ∧ u.acc = crc8Fold s.poly s.acc bytes ∧
      u.respData = crc8Fold s.poly s.acc bytes ^^^ s.xorout ∧
      responses (pushPins bytes) s =
        bytes.inits.tail.map fun sofar => ⟨crc8Fold s.poly s.acc sofar ^^^ s.xorout, false⟩

/-- R73: `BATCH`, whole: its net effect and result, its fault in UNINIT, the bytes the pointer form reads and in which order,
what is refused, and the source's two vectors. The clauses over the host's memory rest on the model's form of it (log 14,
DESIGN CHOICE: unbounded addresses, unreadable without a cell) and on R76 and U3. -/
def Obligations.BatchRule : Prop :=
  (∀ (s : State) (bytes : List Byte), s.phase = .ready → edges (batchPins bytes) s =
    .next { s with acc := crc8Fold s.poly s.acc bytes, respValid := true,
                   respData := crc8Fold s.poly s.acc bytes ^^^ s.xorout, respErr := false }) ∧
  (∀ (s : State) (bytes : List Byte), s.phase = .uninit → edges (batchPins bytes) s =
    .fault (.uninitializedUse (.command (match bytes with
      | [] => .get
      | b :: _ => .push b)))) ∧
  (∀ bytes : List Byte, batchPins bytes = bytes.map (fun b => Pins.word (encode (.push b))) ++ [Pins.word (encode .get)]) ∧
  (∀ (mem : List Host.Cell) (data size : Nat) (bytes : List Byte), bytes.length = size →
    (∀ k < size, hostRead mem (data + k) = bytes[k]?) → batchBuffer mem data size = .ok (batchPins bytes)) ∧
  (∀ (mem : List Host.Cell) (data size k : Nat), k < size → hostRead mem (data + k) = none →
    ∃ r, batchBuffer mem data size = .error r) ∧
  (∀ (size : Nat) (bytes : List Byte), bytes.length ≠ size →
    formBatch size bytes = .error (.batchSizeMismatch size bytes.length)) ∧
  crc8Fold 0xB7#8 0xFF#8 [0x12#8, 0x63#8, 0xAA#8, 0xBB#8, 0xCC#8, 0xCD#8, 0x02#8, 0x0F#8, 0x00#8, 0x4D#8,
    0x12#8, 0x63#8, 0xAA#8, 0xBB#8, 0xCC#8, 0xCD#8, 0x02#8, 0x0F#8, 0x00#8, 0x4D#8] = 0x03#8 ∧
  crc8Fold 0xB7#8 0xFF#8 [0x12#8, 0x63#8, 0xAA#8, 0xBB#8, 0xCC#8, 0xCD#8, 0x02#8, 0x0F#8, 0x00#8, 0x4D#8,
    0x12#8, 0x63#8, 0xAA#8, 0xBB#8, 0xCC#8, 0xCD#8, 0x02#8, 0x0F#8, 0x00#8, 0x4D#8, 0xC2#8, 0x6A#8] = 0x90#8

/-- R75: `BATCH data, 0` is one `GET`, whatever `data` and the host's memory; it leaves every register and returns the
current result. -/
def Obligations.ZeroLengthBatch : Prop :=
  (∀ (mem : List Host.Cell) (data : Nat), batchBuffer mem data 0 = .ok [Pins.command .get]) ∧
  (∀ s : State, s.phase = .ready →
    ∃ t, edges (batchPins []) s = .next t ∧ registers t = registers s ∧ t.respData = s.acc ^^^ s.xorout)

/-- R102: without a `RESET` between them, two data sets give the CRC of the two one after the other, with no signal; with a
`RESET` the second stands alone. -/
def Obligations.ForgottenResetChains : Prop :=
  ∀ (s : State) (xs ys : List Byte), s.phase = .ready →
    (∃ t, edges (batchPins xs ++ batchPins ys) s = .next t ∧ t.acc = crc8Fold s.poly s.acc (xs ++ ys) ∧
      t.respData = crc8Fold s.poly s.acc (xs ++ ys) ^^^ s.xorout ∧ t.respErr = false) ∧
    (∃ t, edges (batchPins xs ++ (Pins.command .reset :: batchPins ys)) s = .next t ∧
      t.acc = crc8Fold s.poly s.init ys ∧ t.respData = crc8Fold s.poly s.init ys ^^^ s.xorout)

/-- R101: `INITDEF`, `INITCUS` or a hardware reset after any inputs leaves the registers it leaves from any state: nothing
before it counts. -/
def Obligations.ReconfigurationAbandonsDataSet : Prop :=
  ∀ (ps : List Pins) (p : Pins) (s s' : State), s.phase = .ready → p.initialises = true →
    ∃ t t', edges (ps ++ [p]) s = .next t ∧ edge p s' = .next t' ∧ registers t = registers t'

/-- R43: however the edges of one host's `BATCH xs` and another host's pushes of `ys` are merged on one port, the `BATCH` is
that of some merge `ms` of `xs` with the bytes of `ys` that come before its `GET`, and the `GET` answers the fold over `ms`:
"its result mixes in another host's bytes". Every such merge of bytes can arise, and one changes the result. Hosts that share
a port are log 10 (DEDUCED). -/
def Obligations.SharedPortInterleavings : Prop :=
  (∀ (s : State) (xs ys : List Byte) (zs : List Pins), s.phase = .ready →
    Interleaves (batchPins xs) (pushPins ys) zs →
    ∃ before after ms : List Byte, ys = before ++ after ∧ Interleaves xs before ms ∧
      zs = batchPins ms ++ pushPins after ∧
      edges (batchPins ms) s =
        .next { s with acc := crc8Fold s.poly s.acc ms, respValid := true,
                       respData := crc8Fold s.poly s.acc ms ^^^ s.xorout, respErr := false } ∧
      (responses zs s)[ms.length]? = some ⟨crc8Fold s.poly s.acc ms ^^^ s.xorout, false⟩) ∧
  (∀ xs ys ms : List Byte, Interleaves xs ys ms → Interleaves (batchPins xs) (pushPins ys) (batchPins ms)) ∧
  (∃ xs ys ms : List Byte, Interleaves xs ys ms ∧
    crc8Fold State.reset.poly State.reset.acc ms ≠ crc8Fold State.reset.poly State.reset.acc xs)

/-- R89: an edge of one engine leaves every other engine as it was, also where it faults; what it does to its own is its own
step, and a stopped engine stays stopped; after edges of all engines in any order, each is what its own edges alone make
of it. That a fault ends the run of its own engine alone is the model's choice (log 16). -/
def Obligations.EnginesAreIndependent : Prop :=
  (∀ (k : Nat) (es : Platform), (stepEngine k es).length = es.length ∧
    (∀ j, j ≠ k → (stepEngine k es)[j]? = es[j]?) ∧
    (∀ s, es[k]? = some (.running s) →
      (∀ t, step s = .next t → (stepEngine k es)[k]? = some (.running t)) ∧
      (∀ f, step s = .fault f → (stepEngine k es)[k]? = some (.faulted f))) ∧
    (∀ f, es[k]? = some (.faulted f) → (stepEngine k es)[k]? = some (.faulted f))) ∧
  (∀ (schedule : List Nat) (es : Platform) (k : Nat),
    (stepEngines schedule es)[k]? = (es[k]?).map (engineStep^[schedule.count k]))

/-- R103, R97: a `BATCH` of `n` bytes takes `n + 1` edges, an accepted word gives exactly one response, a hardware reset and
an idle cycle none. -/
def Obligations.EdgesAndResponses : Prop :=
  (∀ bytes : List Byte, (batchPins bytes).length = bytes.length + 1) ∧
  (∀ (p : Pins) (s t : State), edge p s = .next t →
    (responseNow t).length = if !p.rst && p.cmdValid then 1 else 0) ∧
  (∀ n : Nat, (idlePins n).length = n)

/-- The source's vectors V1 to V3 and V9 (spec/95_test_vectors.md section 1). -/
def Obligations.SourceVectors : Prop :=
  let v1 : List Byte := [0x12, 0x63, 0xAA, 0xBB, 0xCC, 0xCD, 0x02, 0x0F, 0x00, 0x4D,
    0x12, 0x63, 0xAA, 0xBB, 0xCC, 0xCD, 0x02, 0x0F, 0x00, 0x4D]
  let v2 : List Byte := v1 ++ [0xC2, 0x6A]
  let lastResponse := fun ps => (responses ps State.powerUp).getLast?
  lastResponse (Pins.command .initdef :: batchPins v1) = some ⟨0x03#8, false⟩ ∧
  lastResponse (Pins.reset :: batchPins v2) = some ⟨0x90#8, false⟩ ∧
  lastResponse (Pins.command (.initcus 0x07#8 0x00#8 0xFF#8) :: batchPins v2) = some ⟨0x49#8, false⟩ ∧
  lastResponse (Pins.command .initdef :: (batchPins v1 ++ batchPins v1)) = some ⟨0x5E#8, false⟩

/-! ## Encoding -/

/-- Decoding and encoding agree, both ways: the decoder gives back every command from its word, and a word that decodes to a
command is that command's word. -/
def Obligations.DecodeEncodeAgree : Prop :=
  (∀ i : Instr, decode (encode i) = .command i) ∧ (∀ (w : Word) (i : Instr), decode w = .command i → encode i = w)

/-- R47: the fields tile the word: no bit is outside them, and each is read back as written. -/
def Obligations.FieldsTileTheWord : Prop :=
  (∀ w : Word, wordOf (fieldsOf w) = w) ∧ (∀ c : CW, fieldsOf (wordOf c) = c) ∧
  (∀ i : Instr, fieldsOf (encode i) = encodeFields i)

/-- R48: each operand is its field, bit for bit, and every byte is legal in every operand. -/
def Obligations.OperandsBitForBit : Prop :=
  (∀ (w : Word) (p i x : Byte), decode w = .command (.initcus p i x) →
    ∀ k < 8, p.getLsbD k = w.getLsbD (8 + k) ∧ i.getLsbD k = w.getLsbD (16 + k) ∧ x.getLsbD k = w.getLsbD (24 + k)) ∧
  (∀ (w : Word) (b : Byte), decode w = .command (.push b) → ∀ k < 8, b.getLsbD k = w.getLsbD (8 + k)) ∧
  (∀ p i x : Byte, ∃ w, decode w = .command (.initcus p i x)) ∧ (∀ b : Byte, ∃ w, decode w = .command (.push b))

/-- R51: a word is a row's command exactly when it matches the row; the rows are disjoint; a word that matches none is
illegal; the masks and values are those of the patterns; the legal words number 16 777 475. -/
def Obligations.MaskMatchTable : Prop :=
  encodingTable.map (fun r => (r.mnemonic, r.value, r.mask)) =
    [("INITDEF", 0x00000001#32, 0xFFFFFFFF#32), ("INITCUS", 0x00000002#32, 0x000000FF#32),
     ("PUSH", 0x00000003#32, 0xFFFF00FF#32), ("RESET", 0x00000004#32, 0xFFFFFFFF#32),
     ("GET", 0x00000005#32, 0xFFFFFFFF#32)] ∧
  (∀ r ∈ encodingTable, patternMask r.pattern = r.mask ∧ patternValue r.pattern = r.value) ∧
  (∀ r ∈ encodingTable, ∀ w, rowMatches r w = true ↔ ∃ i, decode w = .command i ∧ mnemonicOf i = r.mnemonic) ∧
  encodingTable.Pairwise (fun r r' => ∀ w, ¬(rowMatches r w = true ∧ rowMatches r' w = true)) ∧
  (∀ w, (∀ r ∈ encodingTable, rowMatches r w = false) → ∃ why, decode w = .illegal why) ∧
  Nat.card { w : Word // ∃ i, decode w = .command i } = 16777475

/-- R52: a word is illegal exactly when one of (a), (b), (c) holds; an accepted illegal word changes no register and
responds with `resp_err = 1` and the result; the all-zero word is illegal. -/
def Obligations.IllegalExactlyWhen : Prop :=
  (∀ w : Word, (∃ why, decode w = .illegal why) ↔
    (w.extractLsb' 0 3 = 0b000#3 ∨ w.extractLsb' 0 3 = 0b110#3 ∨ w.extractLsb' 0 3 = 0b111#3) ∨
    w.extractLsb' 3 5 ≠ 0#5 ∨
    ((w.extractLsb' 0 3 = 0b001#3 ∨ w.extractLsb' 0 3 = 0b100#3 ∨ w.extractLsb' 0 3 = 0b101#3) ∧
      ¬(w.extractLsb' 8 8 = 0#8 ∧ w.extractLsb' 16 8 = 0#8 ∧ w.extractLsb' 24 8 = 0#8)) ∨
    (w.extractLsb' 0 3 = 0b011#3 ∧ ¬(w.extractLsb' 16 8 = 0#8 ∧ w.extractLsb' 24 8 = 0#8))) ∧
  (∀ w : Word, (∃ why, decode w = .illegal why) ↔ (fieldsOf w).wellFormed = false) ∧
  (∀ (w : Word) (s : State), s.phase = .ready → (∃ why, decode w = .illegal why) → executeWord w s =
    .next { s with respValid := true, respData := s.acc ^^^ s.xorout, respErr := true }) ∧
  (∃ why, decode 0x00000000#32 = .illegal why)

/-- R57: the worked encodings, in both directions. -/
def Obligations.WorkedEncodings : Prop :=
  encode .initdef = 0x00000001#32 ∧ encode (.initcus 0x07#8 0x00#8 0xFF#8) = 0xFF000702#32 ∧
  encode (.initcus 0xB7#8 0xFF#8 0x00#8) = 0x00FFB702#32 ∧ encode (.initcus 0x1D#8 0xFF#8 0xFF#8) = 0xFFFF1D02#32 ∧
  encode (.push 0x12#8) = 0x00001203#32 ∧ encode (.push 0x00#8) = 0x00000003#32 ∧
  encode (.push 0xFF#8) = 0x0000FF03#32 ∧ encode .reset = 0x00000004#32 ∧ encode .get = 0x00000005#32 ∧
  decode 0x00000001#32 = .command .initdef ∧ decode 0xFF000702#32 = .command (.initcus 0x07#8 0x00#8 0xFF#8) ∧
  decode 0x00FFB702#32 = .command (.initcus 0xB7#8 0xFF#8 0x00#8) ∧
  decode 0xFFFF1D02#32 = .command (.initcus 0x1D#8 0xFF#8 0xFF#8) ∧
  decode 0x00001203#32 = .command (.push 0x12#8) ∧ decode 0x00000003#32 = .command (.push 0x00#8) ∧
  decode 0x0000FF03#32 = .command (.push 0xFF#8) ∧ decode 0x00000004#32 = .command .reset ∧
  decode 0x00000005#32 = .command .get ∧ decode 0x00000000#32 = .illegal .reservedOpcode ∧
  decode 0x00000009#32 = .illegal .reservedZ ∧ decode 0x00011203#32 = .illegal .unusedField ∧
  decode 0x00000007#32 = .illegal .reservedOpcode

/-- R55: the assembler reads the text of every command, with every operand, as that command's word, whatever the host's
memory. -/
def Obligations.AssemblerReadsCommandText : Prop :=
  ∀ (mem : List Host.Cell) (i : Instr), assembleLine mem (textOf i) = .ok [Pins.word (encode i)]

/-- R55: a literal above 255 and a wrong operand count are refused. -/
def Obligations.AssemblerRefusals : Prop :=
  (∀ (cs : List Char) (n : Nat), literal cs = some n →
    (n ≤ 255 → byteOperand cs = .ok (BitVec.ofNat 8 n)) ∧ (255 < n → byteOperand cs = .error .literalOutOfRange)) ∧
  (∀ (operands : List (List Char)) (bytes : List Byte), byteOperands operands = .ok bytes →
    (bytes.length ≠ 1 → parsePush operands = .error .wrongOperandCount) ∧
    (bytes.length ≠ 3 → parseInitcus operands = .error .wrongOperandCount)) ∧
  (∀ (i : Instr) (operands : List (List Char)), operands ≠ [] → parseBare i operands = .error .wrongOperandCount)

/-- R55: "No textual form produces an illegal word": every word that a line presents is legal unless the line's mnemonic,
in upper case, is `.WORD`; so is every word of a program no line of which has that mnemonic. Which lines a `BATCH` list joins
and where a mnemonic ends is log 13. -/
def Obligations.TextPresentsOnlyLegalWords : Prop :=
  (∀ (mem : List Host.Cell) (cs : List Char) (ps : List Pins),
    mnemonicText cs ≠ ".WORD".toList → assembleLine mem cs = .ok ps →
    ∀ p ∈ ps, p.rst = false ∧ (p.cmdValid = true → ∃ i, decode p.cmdWord = .command i)) ∧
  (∀ (mem : List Host.Cell) (lines : List (List Char)) (ps : List Pins),
    (∀ cs ∈ joinLists lines [], mnemonicText cs ≠ ".WORD".toList) → assemble mem lines = .ok ps →
    ∀ p ∈ ps, p.rst = false ∧ (p.cmdValid = true → ∃ i, decode p.cmdWord = .command i))
end

