-- ==== Sys2Proof/Laws/HostSide.lean ====
section
/-! SUPPORT. The host's buffer reads (R33, R76). -/

namespace Sys2Proof.Machine

/-- A buffer that could be read has exactly `size` bytes, so `BATCH data, size` never meets a size mismatch. -/
theorem readBuffer_length {mem : List Host.Cell} {size : Nat} :
    ∀ {data : Nat} {bytes : List Byte}, readBuffer mem data size = .ok bytes → bytes.length = size := by
  induction size with
  | zero => intro data bytes h; simp_all [readBuffer]
  | succ n ih =>
    intro data bytes h
    unfold readBuffer at h
    split at h
    · cases h
    · split at h
      · cases h
      · rename_i bs hb
        cases h
        simp [ih hb]

end Sys2Proof.Machine
end

