-- ==== Sys2Proof/Laws/State.lean ====
section
/-! SUPPORT. One lemma per field of State per update, so that no proof unfolds a record update. -/

namespace Sys2Proof.Machine

@[simp] theorem respond_poly (d : Byte) (e : Bool) (s : State) : (respond d e s).poly = s.poly := rfl
@[simp] theorem respond_init (d : Byte) (e : Bool) (s : State) : (respond d e s).init = s.init := rfl
@[simp] theorem respond_xorout (d : Byte) (e : Bool) (s : State) : (respond d e s).xorout = s.xorout := rfl
@[simp] theorem respond_acc (d : Byte) (e : Bool) (s : State) : (respond d e s).acc = s.acc := rfl
@[simp] theorem respond_phase (d : Byte) (e : Bool) (s : State) : (respond d e s).phase = s.phase := rfl
@[simp] theorem respond_respValid (d : Byte) (e : Bool) (s : State) : (respond d e s).respValid = true := rfl
@[simp] theorem respond_respData (d : Byte) (e : Bool) (s : State) : (respond d e s).respData = d := rfl
@[simp] theorem respond_respErr (d : Byte) (e : Bool) (s : State) : (respond d e s).respErr = e := rfl
@[simp] theorem respond_host (d : Byte) (e : Bool) (s : State) : (respond d e s).host = s.host := rfl

@[simp] theorem dropResponse_poly (s : State) : (dropResponse s).poly = s.poly := rfl
@[simp] theorem dropResponse_init (s : State) : (dropResponse s).init = s.init := rfl
@[simp] theorem dropResponse_xorout (s : State) : (dropResponse s).xorout = s.xorout := rfl
@[simp] theorem dropResponse_acc (s : State) : (dropResponse s).acc = s.acc := rfl
@[simp] theorem dropResponse_phase (s : State) : (dropResponse s).phase = s.phase := rfl
@[simp] theorem dropResponse_respValid (s : State) : (dropResponse s).respValid = false := rfl
@[simp] theorem dropResponse_respData (s : State) : (dropResponse s).respData = s.respData := rfl
@[simp] theorem dropResponse_respErr (s : State) : (dropResponse s).respErr = s.respErr := rfl
@[simp] theorem dropResponse_host (s : State) : (dropResponse s).host = s.host := rfl

@[simp] theorem configure_poly (p i x : Byte) (s : State) : (configure p i x s).poly = p := rfl
@[simp] theorem configure_init (p i x : Byte) (s : State) : (configure p i x s).init = i := rfl
@[simp] theorem configure_xorout (p i x : Byte) (s : State) : (configure p i x s).xorout = x := rfl
@[simp] theorem configure_acc (p i x : Byte) (s : State) : (configure p i x s).acc = i := rfl
@[simp] theorem configure_phase (p i x : Byte) (s : State) : (configure p i x s).phase = .ready := rfl
@[simp] theorem configure_respValid (p i x : Byte) (s : State) : (configure p i x s).respValid = s.respValid := rfl
@[simp] theorem configure_respData (p i x : Byte) (s : State) : (configure p i x s).respData = s.respData := rfl
@[simp] theorem configure_respErr (p i x : Byte) (s : State) : (configure p i x s).respErr = s.respErr := rfl
@[simp] theorem configure_host (p i x : Byte) (s : State) : (configure p i x s).host = s.host := rfl

@[simp] theorem setAcc_poly (v : Byte) (s : State) : (setAcc v s).poly = s.poly := rfl
@[simp] theorem setAcc_init (v : Byte) (s : State) : (setAcc v s).init = s.init := rfl
@[simp] theorem setAcc_xorout (v : Byte) (s : State) : (setAcc v s).xorout = s.xorout := rfl
@[simp] theorem setAcc_acc (v : Byte) (s : State) : (setAcc v s).acc = v := rfl
@[simp] theorem setAcc_phase (v : Byte) (s : State) : (setAcc v s).phase = s.phase := rfl
@[simp] theorem setAcc_respValid (v : Byte) (s : State) : (setAcc v s).respValid = s.respValid := rfl
@[simp] theorem setAcc_respData (v : Byte) (s : State) : (setAcc v s).respData = s.respData := rfl
@[simp] theorem setAcc_respErr (v : Byte) (s : State) : (setAcc v s).respErr = s.respErr := rfl
@[simp] theorem setAcc_host (v : Byte) (s : State) : (setAcc v s).host = s.host := rfl

@[simp] theorem hardwareReset_poly (s : State) : (hardwareReset s).poly = State.reset.poly := rfl
@[simp] theorem hardwareReset_init (s : State) : (hardwareReset s).init = State.reset.init := rfl
@[simp] theorem hardwareReset_xorout (s : State) : (hardwareReset s).xorout = State.reset.xorout := rfl
@[simp] theorem hardwareReset_acc (s : State) : (hardwareReset s).acc = State.reset.acc := rfl
@[simp] theorem hardwareReset_phase (s : State) : (hardwareReset s).phase = State.reset.phase := rfl
@[simp] theorem hardwareReset_respValid (s : State) : (hardwareReset s).respValid = State.reset.respValid := rfl
@[simp] theorem hardwareReset_respData (s : State) : (hardwareReset s).respData = State.reset.respData := rfl
@[simp] theorem hardwareReset_respErr (s : State) : (hardwareReset s).respErr = State.reset.respErr := rfl
@[simp] theorem hardwareReset_host (s : State) : (hardwareReset s).host = s.host := rfl

@[simp] theorem powerCycle_poly (s : State) : (powerCycle s).poly = State.powerUp.poly := rfl
@[simp] theorem powerCycle_init (s : State) : (powerCycle s).init = State.powerUp.init := rfl
@[simp] theorem powerCycle_xorout (s : State) : (powerCycle s).xorout = State.powerUp.xorout := rfl
@[simp] theorem powerCycle_acc (s : State) : (powerCycle s).acc = State.powerUp.acc := rfl
@[simp] theorem powerCycle_phase (s : State) : (powerCycle s).phase = State.powerUp.phase := rfl
@[simp] theorem powerCycle_respValid (s : State) : (powerCycle s).respValid = State.powerUp.respValid := rfl
@[simp] theorem powerCycle_respData (s : State) : (powerCycle s).respData = State.powerUp.respData := rfl
@[simp] theorem powerCycle_respErr (s : State) : (powerCycle s).respErr = State.powerUp.respErr := rfl
@[simp] theorem powerCycle_host (s : State) : (powerCycle s).host = s.host := rfl

@[simp] theorem advance_poly (s : State) : (advance s).poly = s.poly := rfl
@[simp] theorem advance_init (s : State) : (advance s).init = s.init := rfl
@[simp] theorem advance_xorout (s : State) : (advance s).xorout = s.xorout := rfl
@[simp] theorem advance_acc (s : State) : (advance s).acc = s.acc := rfl
@[simp] theorem advance_phase (s : State) : (advance s).phase = s.phase := rfl
@[simp] theorem advance_respValid (s : State) : (advance s).respValid = s.respValid := rfl
@[simp] theorem advance_respData (s : State) : (advance s).respData = s.respData := rfl
@[simp] theorem advance_respErr (s : State) : (advance s).respErr = s.respErr := rfl
@[simp] theorem advance_host (s : State) : (advance s).host = s.host.tail := rfl

@[simp] theorem presentWord_poly (w : Word) (s : State) : (presentWord w s).poly = s.poly := rfl
@[simp] theorem presentWord_init (w : Word) (s : State) : (presentWord w s).init = s.init := rfl
@[simp] theorem presentWord_xorout (w : Word) (s : State) : (presentWord w s).xorout = s.xorout := rfl
@[simp] theorem presentWord_acc (w : Word) (s : State) : (presentWord w s).acc = s.acc := rfl
@[simp] theorem presentWord_phase (w : Word) (s : State) : (presentWord w s).phase = s.phase := rfl
@[simp] theorem presentWord_respValid (w : Word) (s : State) : (presentWord w s).respValid = s.respValid := rfl
@[simp] theorem presentWord_respData (w : Word) (s : State) : (presentWord w s).respData = s.respData := rfl
@[simp] theorem presentWord_respErr (w : Word) (s : State) : (presentWord w s).respErr = s.respErr := rfl
@[simp] theorem presentWord_host (w : Word) (s : State) : (presentWord w s).host = Pins.word w :: s.host.tail := rfl

@[simp] theorem reset_poly : State.reset.poly = 0xB7#8 := rfl
@[simp] theorem reset_init : State.reset.init = 0xFF#8 := rfl
@[simp] theorem reset_xorout : State.reset.xorout = 0x00#8 := rfl
@[simp] theorem reset_acc : State.reset.acc = 0xFF#8 := rfl
@[simp] theorem reset_phase : State.reset.phase = .ready := rfl
@[simp] theorem reset_respValid : State.reset.respValid = false := rfl
@[simp] theorem reset_respData : State.reset.respData = 0x00#8 := rfl
@[simp] theorem reset_respErr : State.reset.respErr = false := rfl
@[simp] theorem reset_host : State.reset.host = [] := rfl

@[simp] theorem powerUp_phase : State.powerUp.phase = .uninit := rfl
@[simp] theorem powerUp_host : State.powerUp.host = [] := rfl

/-- A later response overwrites an earlier one whole (R97). -/
@[simp] theorem respond_respond (d d' : Byte) (e e' : Bool) (s : State) :
    respond d e (respond d' e' s) = respond d e s := rfl

@[simp] theorem result_respond (d : Byte) (e : Bool) (s : State) : result (respond d e s) = result s := rfl
@[simp] theorem result_dropResponse (s : State) : result (dropResponse s) = result s := rfl
@[simp] theorem result_configure (p i x : Byte) (s : State) : result (configure p i x s) = i ^^^ x := rfl
@[simp] theorem result_setAcc (v : Byte) (s : State) : result (setAcc v s) = v ^^^ s.xorout := rfl

end Sys2Proof.Machine
end

