-- ==== Sys2Proof/Laws/Ops.lean ====
section
/-! SUPPORT. One lemma per shared operation: everything it can do. -/

namespace Sys2Proof.Machine

/-- In phase UNINIT the guard faults (R80). -/
theorem whenReady_of_uninit {use : UninitUse} {s : State} {go : Host.Outcome State Fault Refusal}
    (h : s.phase = .uninit) : whenReady use s go = .fault (.uninitializedUse use) := by
  simp [whenReady, h]

/-- In phase READY the guard goes on. -/
theorem whenReady_of_ready {use : UninitUse} {s : State} {go : Host.Outcome State Fault Refusal}
    (h : s.phase = .ready) : whenReady use s go = go := by
  simp [whenReady, h]

/-- The guard answers a next state exactly when the phase is READY and what it guards does. -/
theorem whenReady_eq_next {use : UninitUse} {s t : State} {go : Host.Outcome State Fault Refusal} :
    whenReady use s go = .next t ↔ s.phase = .ready ∧ go = .next t := by
  unfold whenReady
  cases s.phase <;> simp

/-- A command's answer is the state it leaves with `result` as its response (R27). -/
theorem answer_eq_next {err : Bool} {s t : State} : answer err s = .next t ↔ t = respond (result s) err s := by
  simp [answer, eq_comm]

/-- A read gives its value exactly in phase READY (R80). -/
theorem readWhenReady_eq_ok {α : Type} {o : Output} {s : State} {v u : α} :
    readWhenReady o s v = .ok u ↔ s.phase = .ready ∧ v = u := by
  unfold readWhenReady
  cases s.phase <;> simp

/-- A sample in phase READY changes nothing (R38). -/
theorem sample_of_ready {o : Output} {s : State} (h : s.phase = .ready) : sample o s = .next s :=
  whenReady_of_ready h

/-- A stage is the shift, with the polynomial XORed in where the top bit was set (R62). -/
theorem stage_eq (poly x : Byte) : stage poly x = shl1 x ^^^ (if x.getLsbD 7 then poly else 0#8) := by
  unfold stage
  split <;> simp

/-- The fold over a byte and the rest (R73). -/
@[simp] theorem crc8Fold_cons (poly acc b : Byte) (bytes : List Byte) :
    crc8Fold poly acc (b :: bytes) = crc8Fold poly (crc8Step poly acc b) bytes := rfl

@[simp] theorem crc8Fold_nil (poly acc : Byte) : crc8Fold poly acc [] = acc := rfl

end Sys2Proof.Machine
end

