-- ==== Sys2Proof/Laws/PerInstr.lean ====
section
/-! SUPPORT. Per command: its encoding's fields are well-formed in the sense of R52, whatever its operands (R48). -/

namespace Sys2Proof.Laws.EncodingWellFormed

/-- The encoding's fields meet every check of R52. -/
def Statement (i : Instr) : Prop := (encodeFields i).wellFormed = true

theorem initdef : Statement .initdef := rfl

theorem initcus (poly init xorout : Byte) : Statement (.initcus poly init xorout) := rfl

theorem push (b : Byte) : Statement (.push b) := rfl

theorem reset : Statement .reset := rfl

theorem get : Statement .get := rfl

end Sys2Proof.Laws.EncodingWellFormed
end

