-- ==== Sys2Proof/Laws/Platform.lean ====
section
/-! SUPPORT. What an edge of one engine of a platform does. -/

namespace Sys2Proof.Machine

@[simp] theorem engineStep_faulted (f : Fault) : engineStep (.faulted f) = .faulted f := rfl

@[simp] theorem engineStep_refused (r : Refusal) : engineStep (.refused r) = .refused r := rfl

/-- An engine goes on running exactly when its own step answers a next state. -/
theorem engineStep_eq_running {e : Engine} {t : State} :
    engineStep e = .running t ↔ ∃ s, e = .running s ∧ step s = .next t := by
  cases e with
  | running s => cases h : step s <;> simp [engineStep, h]
  | faulted f => simp
  | refused r => simp

@[simp] theorem stepEngines_nil (es : Platform) : stepEngines [] es = es := rfl

@[simp] theorem stepEngines_cons (k : Nat) (ks : List Nat) (es : Platform) :
    stepEngines (k :: ks) es = stepEngines ks (stepEngine k es) := rfl

end Sys2Proof.Machine
end

