-- ==== Sys2Proof/Laws/Step.lean ====
section
/-! SUPPORT. What an edge can do, said once; every invariant cites these instead of unfolding the step. -/

namespace Sys2Proof.Machine

/-- The state a command computes before its response is stored (R59, R60, R65, R70, R71). -/
def effect : Instr → State → State
  | .initdef, s => configure defaultPoly defaultInit defaultXorout s
  | .initcus poly init xorout, s => configure poly init xorout s
  | .push b, s => setAcc (crc8Step s.poly s.acc b) s
  | .reset, s => setAcc s.init s
  | .get, s => s

/-- Every command that answers a next state leaves its effect with `result` of it as the response. -/
theorem exec_eq_next {i : Instr} {s t : State} (h : exec i s = .next t) :
    t = respond (result (effect i s)) false (effect i s) := by
  cases i with
  | initdef => exact answer_eq_next.1 h
  | initcus poly init xorout => exact answer_eq_next.1 h
  | push b => exact answer_eq_next.1 (whenReady_eq_next.1 h).2
  | reset => exact answer_eq_next.1 (whenReady_eq_next.1 h).2
  | get => exact answer_eq_next.1 (whenReady_eq_next.1 h).2

/-- An illegal word that answers a next state does so in phase READY and only responds (R79). -/
theorem execIllegal_eq_next {w : Word} {s t : State} (h : execIllegal w s = .next t) :
    s.phase = .ready ∧ t = respond (result s) true s := by
  have hr := whenReady_eq_next.1 h
  exact ⟨hr.1, answer_eq_next.1 hr.2⟩

theorem edge_of_rst {p : Pins} {s : State} (h : p.rst = true) : edge p s = .next (hardwareReset s) := by
  simp [edge, h]

theorem edge_of_idle {p : Pins} {s : State} (hr : p.rst = false) (hv : p.cmdValid = false) :
    edge p s = .next (dropResponse s) := by
  simp [edge, hr, hv]

theorem edge_of_word {p : Pins} {s : State} (hr : p.rst = false) (hv : p.cmdValid = true) :
    edge p s = executeWord p.cmdWord s := by
  simp [edge, hr, hv]

theorem executeWord_of_command {w : Word} {i : Instr} {s : State} (h : decode w = .command i) :
    executeWord w s = exec i s := by
  simp [executeWord, h]

theorem executeWord_of_illegal {w : Word} {why : Illegal} {s : State} (h : decode w = .illegal why) :
    executeWord w s = execIllegal w s := by
  simp [executeWord, h]

/-- The four ways an edge answers a next state (R82, R96). -/
theorem edge_eq_next {p : Pins} {s t : State} (h : edge p s = .next t) :
    (p.rst = true ∧ t = hardwareReset s) ∨
    (p.rst = false ∧ p.cmdValid = false ∧ t = dropResponse s) ∨
    (p.rst = false ∧ p.cmdValid = true ∧
      ∃ i, decode p.cmdWord = .command i ∧ exec i s = .next t) ∨
    (p.rst = false ∧ p.cmdValid = true ∧ s.phase = .ready ∧ t = respond (result s) true s ∧
      ∃ why, decode p.cmdWord = .illegal why) := by
  by_cases hr : p.rst = true
  · rw [edge_of_rst hr] at h
    exact .inl ⟨hr, by injection h with h; exact h.symm⟩
  · have hr : p.rst = false := by simpa using hr
    by_cases hv : p.cmdValid = true
    · rw [edge_of_word hr hv] at h
      cases hd : decode p.cmdWord with
      | command i =>
        rw [executeWord_of_command hd] at h
        exact .inr (.inr (.inl ⟨hr, hv, i, rfl, h⟩))
      | illegal why =>
        rw [executeWord_of_illegal hd] at h
        have hi := execIllegal_eq_next h
        exact .inr (.inr (.inr ⟨hr, hv, hi.1, hi.2, why, rfl⟩))
    · have hv : p.cmdValid = false := by simpa using hv
      rw [edge_of_idle hr hv] at h
      exact .inr (.inl ⟨hr, hv, by injection h with h; exact h.symm⟩)

@[simp] theorem edges_nil (s : State) : edges [] s = .next s := rfl

@[simp] theorem edges_cons (p : Pins) (ps : List Pins) (s : State) :
    edges (p :: ps) s = andThen (edge p s) (edges ps) := rfl

/-- A step where the host has an input to present. -/
theorem step_of_cons {s : State} {p : Pins} {rest : List Pins} (h : s.host = p :: rest) :
    step s = edge p (advance s) := by
  simp [step, presented, h]

end Sys2Proof.Machine
end

