-- ==== Sys2Proof/Tests/Slice0.lean ====
section
/-! SUPPORT. The model's own tests. Expected values come from spec/95_test_vectors.md and the worked examples of the rules
named; the witnesses show that the hypotheses of the statements can be met together. -/

namespace Sys2Proof.Tests

open Sys2Proof Sys2Proof.Machine

/-- `S = poly init xorout acc` in phase READY with a cleared response register, as spec/95_test_vectors.md writes it. -/
def ready (poly init xorout acc : Byte) : State :=
  { State.reset with poly := poly, init := init, xorout := xorout, acc := acc }

/-- A state in phase UNINIT. -/
def unready : State := { ready 0x11 0x22 0x33 0x44 with phase := .uninit }

/-- The registers and the response after an outcome. -/
def outcomeView (o : Host.Outcome State Fault Refusal) : Option (Registers × Bool × Byte × Bool) :=
  (finalState o).map fun s => (registers s, s.respValid, s.respData, s.respErr)

/-! ## WellFormed: each check refuses an ill-formed term (R52) -/

theorem test_wf_accepts : (CW.mk 0 0 0x12 0 0b011).wellFormed = true := by decide

theorem test_wf_refuses_reserved_opcodes :
    (CW.mk 0 0 0 0 0b000).opcodeAssigned = false ∧ (CW.mk 0 0 0 0 0b110).wellFormed = false ∧
    (CW.mk 0 0 0 0 0b111).wellFormed = false := by decide

theorem test_wf_refuses_z : (CW.mk 0 0 0 1 0b101).zZero = false ∧ (CW.mk 0 0 0 1 0b101).wellFormed = false := by decide

theorem test_wf_refuses_operand_of_initdef :
    (CW.mk 0 0 1 0 0b001).noOperandFieldsZero = false ∧ (CW.mk 0 0 1 0 0b001).wellFormed = false := by decide

theorem test_wf_refuses_upper_fields_of_push :
    (CW.mk 0 1 0x12 0 0b011).pushFieldsZero = false ∧ (CW.mk 1 0 0x12 0 0b011).wellFormed = false := by decide

/-! ## Decoding: words written out bit by bit (R47, R49, R57) -/

theorem test_decode_initdef : decode 0b00000000000000000000000000000001#32 = .command .initdef := by decide

theorem test_decode_initcus :
    decode 0b11111111000000000000011100000010#32 = .command (.initcus 0x07 0x00 0xFF) := by decide

theorem test_decode_push : decode 0b00000000000000000001001000000011#32 = .command (.push 0x12) := by decide

theorem test_decode_reset : decode 0b00000000000000000000000000000100#32 = .command .reset := by decide

theorem test_decode_get : decode 0b00000000000000000000000000000101#32 = .command .get := by decide

/-- spec/95_test_vectors.md section 2.7. -/
theorem test_decode_illegal_words :
    decode 0x00000000#32 = .illegal .reservedOpcode ∧ decode 0x00000006#32 = .illegal .reservedOpcode ∧
    decode 0xFFFFFFFF#32 = .illegal .reservedZ ∧ decode 0x0000000A#32 = .illegal .reservedZ ∧
    decode 0x00000101#32 = .illegal .unusedField ∧ decode 0x01001203#32 = .illegal .unusedField ∧
    decode 0x00000104#32 = .illegal .unusedField ∧ decode 0x80000005#32 = .illegal .unusedField := by decide

/-- R57. -/
theorem test_encode : encode (.initcus 0x1D 0xFF 0xFF) = 0xFFFF1D02#32 ∧ encode (.push 0xFF) = 0x0000FF03#32 := by decide

theorem test_decodeTableWord : decodeTableWord 32 0xFF000702 = some (.initcus 0x07 0x00 0xFF) ∧
    decodeTableWord 32 0x00000007 = none := by decide

/-- R51: the patterns' masks. -/
theorem test_pattern_of_push :
    patternMask "0000000000000000dddddddd00000011" = 0xFFFF00FF#32 ∧
    patternValue "0000000000000000dddddddd00000011" = 0x00000003#32 := by decide

/-! ## The byte step (spec/95_test_vectors.md section 2.2) -/

theorem test_byte_step : crc8Step 0xB7 0xFF 0x12 = 0x60#8 ∧ crc8Step 0x07 0x00 0x12 = 0x7E#8 := by decide

theorem test_byte_fn : byteFn 0x1D 0xAA = 0x73#8 ∧ byteFn 0x80 0xFF = 0x00#8 ∧ byteFn 0xFF 0x40 = 0x20#8 := by decide

theorem test_column : column 0x07 7 = 0x89#8 ∧ crc8Linear 0xB7 0xFF 0x12 = 0x60#8 := by decide

/-- The start and the end of the trace of CRC-8/SMBUS over "123456789" (section 2.6, from general knowledge, log 21). -/
theorem test_smbus_trace :
    crc8Fold 0x07 0x00 [0x31] = 0x97#8 ∧ crc8Step 0x07 0xC7 0x39 = 0xF4#8 := by decide

/-! ## One step of each command from reset (sections 2.1 to 2.4) -/

theorem test_step_initdef :
    outcomeView (step ({ ready 0x07 0x00 0xFF 0x7E with host := [Pins.command .initdef] })) =
      some (⟨0xB7, 0xFF, 0x00, 0xFF⟩, true, 0xFF, false) := by decide

theorem test_step_initcus :
    outcomeView (step (State.reset.withFetchWord 32 0xA55A0002)) =
      some (⟨0x00, 0x5A, 0xA5, 0x5A⟩, true, 0xFF, false) := by decide

theorem test_step_push :
    outcomeView (step (State.reset.withFetchWord 32 0x00001203)) =
      some (⟨0xB7, 0xFF, 0x00, 0x60⟩, true, 0x60, false) := by decide

/-- Corner case (f) of R65: `xorout` reaches the response only. -/
theorem test_push_xorout :
    outcomeView (exec (.push 0x12) (ready 0xB7 0xFF 0xFF 0xFF)) =
      some (⟨0xB7, 0xFF, 0xFF, 0x60⟩, true, 0x9F, false) := by decide

theorem test_exec_reset :
    outcomeView (exec .reset (ready 0x07 0x00 0xFF 0x7E)) = some (⟨0x07, 0x00, 0xFF, 0x00⟩, true, 0xFF, false) := by decide

theorem test_exec_get :
    outcomeView (exec .get (ready 0x07 0x00 0xFF 0xB6)) = some (⟨0x07, 0x00, 0xFF, 0xB6⟩, true, 0x49, false) := by decide

/-- Section 2.7: an illegal word, state unchanged, `resp_err = 1`. -/
theorem test_step_illegal :
    outcomeView (step (presentWord 0x00000009 (ready 0xB7 0xFF 0x00 0x60))) =
      some (⟨0xB7, 0xFF, 0x00, 0x60⟩, true, 0x60, true) := by decide

/-- Section 2.9: an idle edge holds `resp_data`. -/
theorem test_step_idle :
    outcomeView (step { ready 0xB7 0xFF 0x00 0x60 with respValid := true, respData := 0x60 }) =
      some (⟨0xB7, 0xFF, 0x00, 0x60⟩, false, 0x60, false) := by decide

/-- Section 2.9: `rst` wins over a command at the same edge. -/
theorem test_rst_discards_command :
    outcomeView (edge { rst := true, cmdValid := true, cmdWord := 0x00006303 } (ready 0xB7 0xFF 0x00 0x60)) =
      some (⟨0xB7, 0xFF, 0x00, 0xFF⟩, false, 0x00, false) := by decide

/-- Section 2.8: the UNINIT check comes before the illegal check. -/
theorem test_uninit_illegal_word :
    recordedFault (edge (Pins.word 0x00000000) unready) = some (.uninitializedUse (.illegalWord 0)) := by decide

theorem test_uninit_push :
    recordedFault (edge (Pins.word 0x00001203) unready) = some (.uninitializedUse (.command (.push 0x12))) := by decide

theorem test_uninit_initcus :
    outcomeView (edge (Pins.word 0xFFFF1D02) unready) = some (⟨0x1D, 0xFF, 0xFF, 0xFF⟩, true, 0x00, false) := by decide

theorem test_powerUp_is_uninit : State.powerUp.phase = .uninit := by decide

/-! ## The host's side -/

theorem test_read_buffer :
    readBuffer [(5, 0x63), (6, 0xAA)] 5 2 = .ok [0x63, 0xAA] ∧
    readBuffer [(5, 0x63)] 5 2 = .error (.hostByteUnreadable 6) := by decide

theorem test_batch_size_mismatch : formBatch 3 [0x63] = .error (.batchSizeMismatch 3 1) := by decide

theorem test_assemble_push : assembleLine [] "push 0x12 ; a byte".toList = .ok [Pins.word 0x00001203] := by decide

theorem test_assemble_refusals :
    assembleLine [] "PUSH 256".toList = .error .literalOutOfRange ∧
    assembleLine [] "INITCUS 1, 2".toList = .error .wrongOperandCount ∧
    assembleLine [] "NOP".toList = .error .unknownMnemonic := by decide

theorem test_assemble_batch :
    assembleLine [] "BATCH [0x63, 0xAA]".toList = .ok (batchPins [0x63, 0xAA]) ∧
    assembleLine [] ".word 0x00000000".toList = .ok [Pins.word 0] ∧
    assembleLine [] "IDLE 2".toList = .ok [Pins.idle, Pins.idle] := by decide

/-- The fault of one engine leaves the other running (R89; P5 run A for the fault). -/
theorem test_platform_fault_is_its_own :
    stepEngine 0 [.running { unready with host := [Pins.word 0x00001203] }, .running (ready 0x07 0x00 0xFF 0x7E)] =
      [.faulted (.uninitializedUse (.command (.push 0x12))), .running (ready 0x07 0x00 0xFF 0x7E)] := by decide

/-- A `BATCH` list over two lines, as program P2 writes it. -/
theorem test_assemble_list_over_lines :
    assemble [] ["BATCH [0xC2, ; first".toList, "       0x6A]".toList, "GET".toList] =
      .ok (batchPins [0xC2, 0x6A] ++ [Pins.command .get]) := by decide

/-! ## Witnesses: the hypotheses of the statements, met together -/

theorem witness_HardwareResetState : Pins.reset.rst = true := by decide

theorem witness_HardwareResetEdges :
    [Pins.reset, { Pins.reset with cmdValid := true }] ≠ [] ∧
    ∀ p ∈ [Pins.reset, { Pins.reset with cmdValid := true }], p.rst = true := by decide

theorem witness_PowerUpIsUninit :
    (∃ t, edge Pins.reset (powerCycle State.reset) = .next t) ∧ Pins.reset.initialises = true ∧
    (Pins.command .initdef).initialises = true := ⟨⟨_, rfl⟩, by decide, by decide⟩

theorem witness_PhaseOnlyLeavesUninit :
    (∃ t, State.reset.phase = .ready ∧ edge Pins.idle State.reset = .next t) ∧ unready.phase = .uninit ∧
    decode 0x00000007#32 = .illegal .reservedOpcode := ⟨⟨_, rfl, rfl⟩, rfl, by decide⟩

theorem witness_UninitializedUseIsKept :
    unready.phase = .uninit ∧ isInitialiser (decode 0x00000005#32) = false ∧
    moves [.read .crcOut] unready = .fault (.uninitializedUse (.read .crcOut)) ∧
    recordedFault (edges [Pins.command .get] unready) = some (.uninitializedUse (.command .get)) :=
  ⟨rfl, by decide, rfl, by decide⟩

theorem witness_PowerUpContentsNeverSeen :
    unready.phase = .uninit ∧ State.powerUp.phase = .uninit := by decide

theorem witness_BootRequirementIsExact :
    unready.phase = .uninit ∧ bootsFirst [Pins.idle, Pins.reset] = true ∧ bootsFirst [Pins.command .get] = false := by decide

theorem witness_StepRunsDecodedCommand :
    ({ State.reset with host := [Pins.command .get] } : State).host = Pins.command .get :: [] ∧
    (Pins.command .get).rst = false ∧ (Pins.command .get).cmdValid = true ∧
    decode (Pins.command .get).cmdWord = .command .get ∧ decode (Pins.word 0).cmdWord = .illegal .reservedOpcode ∧
    State.reset.host = [] ∧ decodeTableWord 32 5 = some .get := by decide

theorem witness_EdgePriority :
    Pins.reset.rst = true ∧ Pins.idle.rst = false ∧ Pins.idle.cmdValid = false ∧ (Pins.word 0).cmdValid = true ∧
    unready.phase = .uninit ∧ isInitialiser (decode (Pins.word 0).cmdWord) = false ∧ State.reset.phase = .ready ∧
    decode (Pins.word 0).cmdWord = .illegal .reservedOpcode ∧ decode (Pins.word 1).cmdWord = .command .initdef ∧
    isInitialiser (.command .initdef) = true := by decide

theorem witness_WordTransition :
    unready.phase = .uninit ∧ isInitialiser (decode 0x00000005#32) = false ∧ State.reset.phase = .ready ∧
    isInitialiser (decode 0x00000001#32) = true := by decide

theorem witness_ClockEdge :
    Pins.reset.rst = true ∧ (Pins.word 5).rst = false ∧ (Pins.word 5).cmdValid = true ∧ Pins.idle.cmdValid = false ∧
    ∃ t, executeWord 0x00000005#32 State.reset = .next t := ⟨rfl, rfl, rfl, rfl, _, rfl⟩

theorem witness_ResponseTiming :
    (Pins.word 5).rst = false ∧ (Pins.word 5).cmdValid = true ∧
    ∃ t, edge (Pins.word 5) State.reset = .next t ∧ (∃ u, edge Pins.reset t = .next u) ∧
      (∃ u, edge Pins.idle t = .next u) ∧ ∃ u, edge (Pins.word 0) t = .next u :=
  ⟨rfl, rfl, _, rfl, ⟨_, rfl⟩, ⟨_, rfl⟩, _, rfl⟩

theorem witness_NextCommandSeesFullEffect :
    Pins.reset.rst = true ∧ State.reset.phase = .ready ∧ decode 0x00000000#32 = .illegal .reservedOpcode := by decide

/-- The READY start of ReadyRunsNeverStop, ResetGetLaws, PushBatchEquivalence, ZeroLengthBatch, ForgottenResetChains and
AccumulatorIsPolynomialRemainder. -/
theorem witness_ready : State.reset.phase = .ready ∧ (ready 0x00 0x5A 0xA5 0x5A).phase = .ready := by decide

theorem witness_StepKeepsResponseCoherent :
    ResponseCoherent State.reset ∧ (∃ t, step State.reset = .next t) ∧
    ResponseCoherent { ready 0xB7 0xFF 0x00 0x60 with respData := 0x60 } :=
  ⟨fun _ => .inr rfl, ⟨_, rfl⟩, fun _ => .inl (by decide)⟩

theorem witness_OutcomesOfAcceptedWord :
    decode 0x00000005#32 = .command .get ∧ decode 0x00000007#32 = .illegal .reservedOpcode ∧
    State.reset.phase = .ready ∧ unready.phase = .uninit ∧ isInitialiser (decode 0x00000005#32) = false := by decide

theorem witness_IllegalWordRule : unready.phase = .uninit ∧ State.reset.phase = .ready ∧
    ∃ t, execIllegal 0 State.reset = .next t := ⟨rfl, rfl, _, rfl⟩

/-- The commands that answer in HardwareResetEdges, InitdefRule, InitcusRule, ResetRule, GetRule, CommandFrames and
ReadsAndIdempotentCommands. -/
theorem witness_commands_answer :
    (∃ t, exec .initdef unready = .next t) ∧ (∃ t, exec (.initcus 0 1 2) unready = .next t) ∧
    (∃ t, exec (.push 0x12) State.reset = .next t) ∧ (∃ t, exec .reset State.reset = .next t) ∧
    (∃ t, exec .get State.reset = .next t) := ⟨⟨_, rfl⟩, ⟨_, rfl⟩, ⟨_, rfl⟩, ⟨_, rfl⟩, _, rfl⟩

theorem witness_InitcusRule : 0xFF000702#32 &&& 0x000000FF#32 = 0x00000002#32 ∧ ([0x12] : List Byte) ≠ [] := by decide

theorem witness_PushRule :
    0x00001203#32 &&& 0xFFFF00FF#32 = 0x00000003#32 ∧ unready.phase = .uninit ∧ State.reset.phase = .ready ∧
    0xFF#8 ^^^ 0x7F#8 = 0x80#8 ∧ 0xFF#8 ^^^ 0xFE#8 = 0x01#8 := by decide

theorem witness_ResetRule :
    unready.phase = .uninit ∧ registers (ready 0xB7 0xFF 0x00 0x03) = ⟨0xB7, 0xFF, 0x00, 0x03⟩ ∧
    (ready 0x07 0x00 0xFF 0x7E).init = 0x00 ∧ (ready 0x07 0x00 0xFF 0x7E).xorout = 0xFF ∧
    isInitialiser (.command .initdef) = true := by decide

theorem witness_GetRule :
    (ready 0x07 0x00 0xFF 0xB6).phase = .ready ∧ (ready 0x07 0x00 0xFF 0xB6).acc = 0xB6 ∧
    (ready 0x07 0x00 0xFF 0xB6).xorout = 0xFF ∧ State.reset.xorout = 0x00 := by decide

/-- One edge for each clause of ConfigurationWriters, AccumulatorWriters, ErrorBitIsNotSticky and EdgesAndResponses. -/
theorem witness_edges_of_every_kind :
    (∃ t, edge Pins.reset unready = .next t) ∧ (∃ t, edge Pins.idle unready = .next t) ∧
    (∃ t, edge (Pins.word 1) unready = .next t ∧ decode (Pins.word 1).cmdWord = .command .initdef) ∧
    (∃ t, edge (Pins.word 2) unready = .next t ∧ decode (Pins.word 2).cmdWord = .command (.initcus 0 0 0)) ∧
    (∃ t, edge (Pins.word 3) State.reset = .next t ∧ decode (Pins.word 3).cmdWord = .command (.push 0)) ∧
    (∃ t, edge (Pins.word 4) State.reset = .next t ∧ decode (Pins.word 4).cmdWord = .command .reset) ∧
    (∃ t, edge (Pins.word 5) State.reset = .next t ∧ decode (Pins.word 5).cmdWord = .command .get) ∧
    (∃ t, edge (Pins.word 0) State.reset = .next t ∧ (Pins.word 0).initialises = false) :=
  ⟨⟨_, rfl⟩, ⟨_, rfl⟩, ⟨_, rfl, by decide⟩, ⟨_, rfl, by decide⟩, ⟨_, rfl, by decide⟩, ⟨_, rfl, by decide⟩,
    ⟨_, rfl, by decide⟩, _, rfl, by decide⟩

theorem witness_CrcOutRule :
    ∃ t, edge (Pins.word 0x00001203) State.reset = .next t ∧ visibleCrcOut t = some 0x60 ∧
      visibleCrcOut State.reset = some 0xFF := ⟨_, rfl, by decide, by decide⟩

theorem witness_ReadingNeverMatters :
    State.reset.phase = .ready ∧ ∀ m ∈ [HostMove.read .crcOut, HostMove.edge Pins.idle], m ≠ .powerCycle := by decide

theorem witness_ConfigurationReuse :
    isInitialiser (.command .initdef) = true ∧
    ∀ w ∈ [0x00001203#32, 0x00000000#32], isInitialiser (decode w) = false := by
  refine ⟨by decide, fun w hw => ?_⟩
  simp only [List.mem_cons, List.not_mem_nil, or_false] at hw
  rcases hw with rfl | rfl <;> decide

theorem witness_StageRule : (0xED#8).getLsbD 7 = true ∧ (0x6D#8).getLsbD 7 = false := by decide

theorem witness_DegeneratePolynomial :
    (ready 0x00 0x5A 0xA5 0x5A).phase = .ready ∧ (ready 0x00 0x5A 0xA5 0x5A).poly = 0x00 ∧ ([0x33] : List Byte) ≠ [] := by decide

theorem witness_ByteStepBijectiveIffOddPolynomial :
    (0xB7#8).getLsbD 0 = true ∧ (0xB6#8).getLsbD 0 = false := by decide

theorem witness_BatchRule :
    unready.phase = .uninit ∧ ([0x63, 0xAA] : List Byte).length = 2 ∧
    (∀ k < 2, hostRead [(5, 0x63), (6, 0xAA)] (5 + k) = ([0x63, 0xAA] : List Byte)[k]?) ∧
    1 < 2 ∧ hostRead [(5, 0x63)] (5 + 1) = none ∧ ([0x63] : List Byte).length ≠ 3 := by decide

theorem witness_ReconfigurationAbandonsDataSet :
    State.reset.phase = .ready ∧ (Pins.command (.initcus 7 0 255)).initialises = true := by decide

/-- Another host's `PUSH 0x63` between the `PUSH 0x12` and the `GET` of a `BATCH`, and its `PUSH 0x64` after it. -/
theorem witness_SharedPortInterleavings :
    State.reset.phase = .ready ∧ Interleaves [0x12#8] [0x63#8] [0x12#8, 0x63#8] ∧
    Interleaves (batchPins [0x12]) (pushPins [0x63, 0x64]) (batchPins [0x12, 0x63] ++ pushPins [0x64]) :=
  ⟨rfl, .left (.right .nil), .left (.right (.left (.right .nil)))⟩

theorem witness_EnginesAreIndependent :
    (∃ t, step State.reset = .next t) ∧
    step { unready with host := [Pins.command .get] } = .fault (.uninitializedUse (.command .get)) ∧
    ([.faulted (.uninitializedUse (.command .get))] : Platform)[0]? =
      some (.faulted (.uninitializedUse (.command .get))) ∧ (1 : Nat) ≠ 0 := ⟨⟨_, rfl⟩, rfl, rfl, by decide⟩

theorem witness_DecodeEncodeAgree : decode 0x00001203#32 = .command (.push 0x12) := by decide

theorem witness_OperandsBitForBit :
    decode 0xFF000702#32 = .command (.initcus 0x07 0x00 0xFF) ∧ decode 0x0000FF03#32 = .command (.push 0xFF) ∧ 7 < 8 := by
  decide

theorem witness_MaskMatchTable :
    (∃ r, r ∈ encodingTable ∧ rowMatches r 0x00001203#32 = true) ∧
    (∀ r ∈ encodingTable, rowMatches r 0x00011203#32 = false) :=
  ⟨⟨⟨"PUSH", 0x00000003, 0xFFFF00FF, "0000000000000000dddddddd00000011"⟩, by decide, by decide⟩, by decide⟩

theorem witness_IllegalExactlyWhen : State.reset.phase = .ready ∧ decode 0x00000104#32 = .illegal .unusedField := by decide

theorem witness_AssemblerRefusals :
    literal "255".toList = some 255 ∧ literal "0x100".toList = some 256 ∧ byteOperands [] = .ok [] ∧
    byteOperands ["0".toList, "0".toList] = .ok [0, 0] ∧ [[]] ≠ ([] : List (List Char)) := by decide

theorem witness_TextPresentsOnlyLegalWords :
    mnemonicText "batch 5, 1".toList ≠ ".WORD".toList ∧
    assembleLine [(5, 0x63)] "batch 5, 1".toList = .ok (batchPins [0x63]) ∧
    joinLists ["GET".toList] [] = ["GET".toList] ∧ assemble [] ["GET".toList] = .ok [Pins.command .get] ∧
    mnemonicText ".word 0".toList = ".WORD".toList := by decide

end Sys2Proof.Tests
end

section
/-! PROOFS. Rule R8: nothing a run shows depends on what the registers and outputs hold in phase UNINIT, because an edge in
UNINIT is idle, or overwrites them all, or faults whatever they hold (R24, R80). The list of the host's later inputs is no
part of the engine (log 1), so that a run does not depend on it either. -/

namespace Sys2Proof.Machine

/-- The state with another list of inputs on the host's side. -/
def setHost (h : List Pins) (s : State) : State := { s with host := h }

@[simp] theorem setHost_phase (h : List Pins) (s : State) : (setHost h s).phase = s.phase := rfl

@[simp] theorem responseNow_setHost (h : List Pins) (s : State) : responseNow (setHost h s) = responseNow s := rfl

@[simp] theorem registers_setHost (h : List Pins) (s : State) : registers (setHost h s) = registers s := rfl

@[simp] theorem visibleCrcOut_setHost (h : List Pins) (s : State) : visibleCrcOut (setHost h s) = visibleCrcOut s := rfl

/-- `setHost` on the next state, where an outcome has one. -/
def outcomeSetHost (h : List Pins) (o : Host.Outcome State Fault Refusal) : Host.Outcome State Fault Refusal :=
  andThen o fun s => .next (setHost h s)

@[simp] theorem outcomeSetHost_next (h : List Pins) (s : State) :
    outcomeSetHost h (.next s) = .next (setHost h s) := rfl

@[simp] theorem outcomeSetHost_fault (h : List Pins) (f : Fault) : outcomeSetHost h (.fault f) = .fault f := rfl

@[simp] theorem outcomeSetHost_refused (h : List Pins) (r : Refusal) :
    outcomeSetHost h (.refused r) = .refused r := rfl

/-! ## An edge and a run do not look at the host's later inputs -/

theorem whenReady_setHost {use : UninitUse} {h : List Pins} {s : State} {go go' : Host.Outcome State Fault Refusal}
    (hgo : go' = outcomeSetHost h go) :
    whenReady use (setHost h s) go' = outcomeSetHost h (whenReady use s go) := by
  subst hgo
  cases hp : s.phase with
  | uninit => simp [whenReady_of_uninit, hp]
  | ready => simp [whenReady_of_ready, hp]

theorem exec_setHost (i : Instr) (h : List Pins) (s : State) :
    exec i (setHost h s) = outcomeSetHost h (exec i s) := by
  cases i with
  | initdef => rfl
  | initcus poly init xorout => rfl
  | push b => exact whenReady_setHost rfl
  | reset => exact whenReady_setHost rfl
  | get => exact whenReady_setHost rfl

theorem executeWord_setHost (w : Word) (h : List Pins) (s : State) :
    executeWord w (setHost h s) = outcomeSetHost h (executeWord w s) := by
  cases hd : decode w with
  | command i => simp only [executeWord_of_command hd, exec_setHost]
  | illegal why =>
    simp only [executeWord_of_illegal hd]
    exact whenReady_setHost rfl

theorem edge_setHost (p : Pins) (h : List Pins) (s : State) :
    edge p (setHost h s) = outcomeSetHost h (edge p s) := by
  cases hr : p.rst with
  | true => simp only [edge_of_rst hr]; rfl
  | false =>
    cases hv : p.cmdValid with
    | true => simp only [edge_of_word hr hv, executeWord_setHost]
    | false => simp only [edge_of_idle hr hv]; rfl

theorem edges_setHost (ps : List Pins) (h : List Pins) (s : State) :
    edges ps (setHost h s) = outcomeSetHost h (edges ps s) := by
  induction ps generalizing s with
  | nil => rfl
  | cons p ps ih =>
    rw [edges_cons, edges_cons, edge_setHost]
    cases edge p s with
    | next t => exact ih t
    | fault f => rfl
    | refused r => rfl

theorem responses_setHost (ps : List Pins) (h : List Pins) (s : State) :
    responses ps (setHost h s) = responses ps s := by
  induction ps generalizing s with
  | nil => rfl
  | cons p ps ih => cases he : edge p s <;> simp [responses, edge_setHost, he, ih]

@[simp] theorem observe_setHost (ps : List Pins) (h : List Pins) (s : State) :
    observe ps (setHost h s) = observe ps s := by
  cases he : edges ps s <;> simp [observe, responses_setHost, edges_setHost, he, finalState, recordedFault]

@[simp] theorem goodEnd_setHost (ps : List Pins) (h : List Pins) (s : State) :
    goodEnd ps (setHost h s) = goodEnd ps s := by
  cases he : edges ps s <;> simp [goodEnd, edges_setHost, he]

/-! ## What is seen of a run, by its first edge -/

theorem observe_cons_of_next {p : Pins} {s t : State} (h : edge p s = .next t) (ps : List Pins) :
    observe (p :: ps) s = { observe ps t with responses := responseNow t ++ (observe ps t).responses } := by
  simp [observe, responses, h, andThen]

theorem observe_cons_of_fault {p : Pins} {s : State} {f : Fault} (h : edge p s = .fault f) (ps : List Pins) :
    observe (p :: ps) s = { responses := [], crcOut := none, fault := some f, registers := none } := by
  simp [observe, responses, h, andThen, finalState, recordedFault]

theorem goodEnd_cons_of_next {p : Pins} {s t : State} (h : edge p s = .next t) (ps : List Pins) :
    goodEnd (p :: ps) s = goodEnd ps t := by
  simp [goodEnd, h, andThen]

theorem goodEnd_cons_of_fault {p : Pins} {s : State} {f : Fault} (h : edge p s = .fault f) (ps : List Pins) :
    goodEnd (p :: ps) s = false := by
  simp [goodEnd, h, andThen]

/-- A run of no edges shows nothing of a state in UNINIT (R24; log 9). -/
theorem observe_nil_of_uninit {s : State} (h : s.phase = .uninit) :
    observe [] s = { responses := [], crcOut := none, fault := none, registers := none } := by
  simp [observe, responses, finalState, recordedFault, visibleCrcOut, readCrcOut, readWhenReady, h]

/-- A run that ends in UNINIT has no good end (log 9). -/
theorem goodEnd_nil_of_uninit {s : State} (h : s.phase = .uninit) : goodEnd [] s = false := by
  simp [goodEnd, h]

@[simp] theorem responseNow_dropResponse (s : State) : responseNow (dropResponse s) = [] := rfl

/-! ## The three kinds of edge in phase UNINIT -/

theorem edge_of_isIdle {p : Pins} (h : p.isIdle = true) (s : State) : edge p s = .next (dropResponse s) := by
  simp only [Pins.isIdle, Bool.and_eq_true, Bool.not_eq_true'] at h
  obtain ⟨hr, hv⟩ := h
  exact edge_of_idle hr hv

/-- An initialiser computes one and the same state from any state, but for the host's list (R59, R60). -/
theorem exec_of_isInitialiser {i : Instr} (h : isInitialiser (.command i) = true) :
    ∃ u, ∀ s, exec i s = .next (setHost s.host u) := by
  cases i with
  | initdef => exact ⟨respond (defaultInit ^^^ defaultXorout) false State.reset, fun _ => rfl⟩
  | initcus poly init xorout =>
    exact ⟨respond (init ^^^ xorout) false (configure poly init xorout State.reset), fun _ => rfl⟩
  | push b => cases h
  | reset => cases h
  | get => cases h

/-- An edge that initialises leaves one and the same state after any state, but for the host's list (R92, R94). -/
theorem edge_of_initialises {p : Pins} (h : p.initialises = true) :
    ∃ u, ∀ s, edge p s = .next (setHost s.host u) := by
  cases hr : p.rst with
  | true => exact ⟨State.reset, fun s => edge_of_rst hr⟩
  | false =>
    simp only [Pins.initialises, hr, Bool.false_or, Bool.and_eq_true] at h
    obtain ⟨hv, hi⟩ := h
    cases hd : decode p.cmdWord with
    | command i =>
      simp only [edge_of_word hr hv, executeWord_of_command hd]
      exact exec_of_isInitialiser (hd ▸ hi)
    | illegal why => simp [hd, isInitialiser] at hi

/-- In UNINIT a command that does not initialise faults, whatever the registers hold (R80). -/
theorem exec_of_uninit {i : Instr} {s : State} (hi : isInitialiser (.command i) = false) (hs : s.phase = .uninit) :
    exec i s = .fault (.uninitializedUse (.command i)) := by
  cases i with
  | initdef => cases hi
  | initcus poly init xorout => cases hi
  | push b => exact whenReady_of_uninit hs
  | reset => exact whenReady_of_uninit hs
  | get => exact whenReady_of_uninit hs

/-- In UNINIT every other edge records one fault, the same whatever the registers hold (R80). -/
theorem edge_of_uninit {p : Pins} (hidle : p.isIdle = false) (hinit : p.initialises = false) :
    ∃ f, ∀ s : State, s.phase = .uninit → edge p s = .fault f := by
  simp only [Pins.initialises, Bool.or_eq_false_iff] at hinit
  obtain ⟨hr, hi⟩ := hinit
  have hv : p.cmdValid = true := by simpa [Pins.isIdle, hr] using hidle
  rw [hv, Bool.true_and] at hi
  cases hd : decode p.cmdWord with
  | command i =>
    simp only [edge_of_word hr hv, executeWord_of_command hd]
    exact ⟨_, fun s => exec_of_uninit (hd ▸ hi)⟩
  | illegal why =>
    simp only [edge_of_word hr hv, executeWord_of_illegal hd]
    exact ⟨_, fun s => whenReady_of_uninit⟩

/-- Settles O6, by induction over the inputs: an idle first edge shows nothing and stays in UNINIT, an initialising one
leaves both engines in the same state but for the host's list, and any other records the same fault. -/
theorem powerUpContentsNeverSeen : Obligations.PowerUpContentsNeverSeen := by
  unfold Obligations.PowerUpContentsNeverSeen
  intro ps
  induction ps with
  | nil =>
    intro s t hs ht
    exact ⟨by rw [observe_nil_of_uninit hs, observe_nil_of_uninit ht],
      by rw [goodEnd_nil_of_uninit hs, goodEnd_nil_of_uninit ht]⟩
  | cons p ps ih =>
    intro s t hs ht
    cases hidle : p.isIdle with
    | true =>
      have hedge := edge_of_isIdle hidle
      obtain ⟨hobs, hgood⟩ := ih (dropResponse s) (dropResponse t) hs ht
      simp [observe_cons_of_next (hedge _), goodEnd_cons_of_next (hedge _), hobs, hgood]
    | false =>
      cases hinit : p.initialises with
      | true =>
        obtain ⟨u, hedge⟩ := edge_of_initialises hinit
        simp [observe_cons_of_next (hedge _), goodEnd_cons_of_next (hedge _)]
      | false =>
        obtain ⟨f, hedge⟩ := edge_of_uninit hidle hinit
        simp [observe_cons_of_fault (hedge s hs), observe_cons_of_fault (hedge t ht),
          goodEnd_cons_of_fault (hedge s hs), goodEnd_cons_of_fault (hedge t ht)]

end Sys2Proof.Machine
end

section
/-! PROOFS. The state rules of spec/10_state.md: what each kind of edge leaves in the registers, the phase and the response
register, read off `edge_eq_next` and `effect`. First the facts about commands and edges that the statements share. -/

namespace Sys2Proof.Machine

/-! ## Commands -/

/-- A command that answers a next state leaves the phase READY (R24). -/
theorem phase_of_exec_eq_next {i : Instr} {s t : State} (h : exec i s = .next t) : t.phase = .ready := by
  have ht := exec_eq_next h
  cases i with
  | initdef => simp [ht, effect]
  | initcus poly init xorout => simp [ht, effect]
  | push b => simp [ht, effect, (whenReady_eq_next.1 h).1]
  | reset => simp [ht, effect, (whenReady_eq_next.1 h).1]
  | get => simp [ht, effect, (whenReady_eq_next.1 h).1]

/-- `INITDEF` leaves the state of a hardware reset but for its own response, which is `0xFF` (R31, R59). -/
theorem exec_initdef (s : State) : exec .initdef s =
    .next { State.reset with respValid := true, respData := 0xFF#8, respErr := false, host := s.host } := by
  have hdata : defaultInit ^^^ defaultXorout = 0xFF#8 := by decide
  rw [← hdata]
  rfl

@[simp] theorem effect_host (i : Instr) (s : State) : (effect i s).host = s.host := by
  cases i <;> rfl

/-- A command that does not initialise leaves the configuration (R23). -/
theorem effect_keeps_configuration {i : Instr} (hi : isInitialiser (.command i) = false) (s : State) :
    (effect i s).poly = s.poly ∧ (effect i s).init = s.init ∧ (effect i s).xorout = s.xorout := by
  cases i with
  | initdef => cases hi
  | initcus poly init xorout => cases hi
  | push b => exact ⟨rfl, rfl, rfl⟩
  | reset => exact ⟨rfl, rfl, rfl⟩
  | get => exact ⟨rfl, rfl, rfl⟩

theorem exec_keeps_configuration {i : Instr} {s t : State} (hi : isInitialiser (.command i) = false)
    (h : exec i s = .next t) : t.poly = s.poly ∧ t.init = s.init ∧ t.xorout = s.xorout := by
  simp [exec_eq_next h, effect_keeps_configuration hi]

/-! ## Reads -/

theorem readCrcOut_of_uninit {s : State} (h : s.phase = .uninit) :
    readCrcOut s = .error (.uninitializedUse (.read .crcOut)) := by
  simp [readCrcOut, readWhenReady, h]

theorem readCrcOut_of_ready {s : State} (h : s.phase = .ready) : readCrcOut s = .ok (result s) :=
  readWhenReady_eq_ok.2 ⟨h, rfl⟩

/-! ## The next state of an edge, by its kind -/

theorem edge_of_command {p : Pins} {i : Instr} {s : State} (hr : p.rst = false) (hv : p.cmdValid = true)
    (hd : decode p.cmdWord = .command i) : edge p s = exec i s :=
  (edge_of_word hr hv).trans (executeWord_of_command hd)

theorem edge_of_illegal {p : Pins} {why : Illegal} {s : State} (hr : p.rst = false) (hv : p.cmdValid = true)
    (hd : decode p.cmdWord = .illegal why) : edge p s = execIllegal p.cmdWord s :=
  (edge_of_word hr hv).trans (executeWord_of_illegal hd)

section
variable {p : Pins} {s t : State} (h : edge p s = .next t)
include h

theorem edge_next_of_rst (hr : p.rst = true) : t = hardwareReset s :=
  Host.Outcome.next.inj (h.symm.trans (edge_of_rst hr))

theorem edge_next_of_idle (hr : p.rst = false) (hv : p.cmdValid = false) : t = dropResponse s :=
  Host.Outcome.next.inj (h.symm.trans (edge_of_idle hr hv))

theorem edge_next_of_command {i : Instr} (hr : p.rst = false) (hv : p.cmdValid = true)
    (hd : decode p.cmdWord = .command i) : t = respond (result (effect i s)) false (effect i s) :=
  exec_eq_next ((edge_of_command hr hv hd).symm.trans h)

theorem edge_next_of_illegal {why : Illegal} (hr : p.rst = false) (hv : p.cmdValid = true)
    (hd : decode p.cmdWord = .illegal why) : t = respond (result s) true s :=
  (execIllegal_eq_next ((edge_of_illegal hr hv hd).symm.trans h)).2

/-- An edge that does not initialise is idle, or does a command that does not, or answers an illegal word. -/
theorem edge_next_of_not_initialises (hi : p.initialises = false) :
    t = dropResponse s ∨
    (p.cmdValid = true ∧ ∃ i, decode p.cmdWord = .command i ∧ isInitialiser (.command i) = false ∧
      t = respond (result (effect i s)) false (effect i s)) ∨
    t = respond (result s) true s := by
  obtain ⟨hr, -⟩ | ⟨-, -, ht⟩ | ⟨hr, hv, i, hd, hx⟩ | ⟨-, -, -, ht, -⟩ := edge_eq_next h
  · simp [Pins.initialises, hr] at hi
  · exact .inl ht
  · exact .inr (.inl ⟨hv, i, hd, by simpa [Pins.initialises, hr, hv, hd] using hi, exec_eq_next hx⟩)
  · exact .inr (.inr ht)

/-- No edge sets the phase back to UNINIT (R24). -/
theorem edge_keeps_ready (hs : s.phase = .ready) : t.phase = .ready := by
  obtain ⟨-, rfl⟩ | ⟨-, -, rfl⟩ | ⟨-, -, i, -, hx⟩ | ⟨-, -, -, rfl, -⟩ := edge_eq_next h
  · simp
  · simpa using hs
  · exact phase_of_exec_eq_next hx
  · simpa using hs

/-- The configuration changes only at an edge that initialises (R23). -/
theorem edge_keeps_configuration (hi : p.initialises = false) :
    t.poly = s.poly ∧ t.init = s.init ∧ t.xorout = s.xorout := by
  obtain rfl | ⟨-, i, -, hinit, rfl⟩ | rfl := edge_next_of_not_initialises h hi
  · simp
  · simpa using effect_keeps_configuration hinit s
  · simp

/-- The accumulator changes only at an edge that initialises, and by `RESET` and `PUSH` (R19). -/
theorem edge_keeps_acc (hi : p.initialises = false)
    (hw : p.cmdValid = true → decode p.cmdWord ≠ .command .reset ∧ ∀ b, decode p.cmdWord ≠ .command (.push b)) :
    t.acc = s.acc := by
  obtain rfl | ⟨hv, i, hd, hinit, rfl⟩ | rfl := edge_next_of_not_initialises h hi
  · simp
  · obtain ⟨hreset, hpush⟩ := hw hv
    cases i with
    | initdef => cases hinit
    | initcus poly init xorout => cases hinit
    | push b => exact absurd hd (hpush b)
    | reset => exact absurd hd hreset
    | get => rfl
  · simp

/-- An accepted word leaves `resp_err = 1` exactly when it is illegal (R26). -/
theorem edge_respErr_iff_illegal (hr : p.rst = false) (hv : p.cmdValid = true) :
    t.respErr = true ↔ ∃ why, decode p.cmdWord = .illegal why := by
  cases hd : decode p.cmdWord with
  | command i => simp [edge_next_of_command h hr hv hd]
  | illegal why => simp [edge_next_of_illegal h hr hv hd]

end

/-! ## The statements about one edge -/

/-- Settles O4, by the kinds of edge that answer a next state, and by the guard of the commands in UNINIT. -/
theorem phaseOnlyLeavesUninit : Obligations.PhaseOnlyLeavesUninit := by
  unfold Obligations.PhaseOnlyLeavesUninit
  refine ⟨powerUp_phase, fun p s t hs h => edge_keeps_ready h hs, fun p s hr => ⟨_, edge_of_rst hr, rfl⟩,
    fun s => ⟨_, rfl, rfl⟩, fun poly init xorout s => ⟨_, rfl, rfl⟩, fun s hs => ?_⟩
  exact ⟨fun b => exec_of_uninit rfl hs, exec_of_uninit rfl hs, exec_of_uninit rfl hs,
    fun w why hd => (executeWord_of_illegal hd).trans (whenReady_of_uninit hs), readCrcOut_of_uninit hs⟩

/-- Settles O27, from the next state of each writer and the frame of every other edge. -/
theorem configurationWriters : Obligations.ConfigurationWriters := by
  unfold Obligations.ConfigurationWriters
  intro p s t h
  refine ⟨fun hr => ?_, fun hr hv hd => ?_, fun hr hv poly init xorout hd => ?_, edge_keeps_configuration h⟩
  · simp [edge_next_of_rst h hr]
  · simp [edge_next_of_command h hr hv hd, effect, defaultPoly, defaultInit, defaultXorout]
  · simp [edge_next_of_command h hr hv hd, effect]

/-- Settles O28, from the next state of each writer and the frame of every other edge. -/
theorem accumulatorWriters : Obligations.AccumulatorWriters := by
  unfold Obligations.AccumulatorWriters
  intro p s t h
  refine ⟨fun hr => ?_, fun hr hv hi => ?_, fun hr hv hd => ?_, fun hr hv b hd => ?_, edge_keeps_acc h⟩
  · simp [edge_next_of_rst h hr]
  · cases hd : decode p.cmdWord with
    | command i =>
      rw [hd] at hi
      rw [edge_next_of_command h hr hv hd]
      cases i with
      | initdef => rfl
      | initcus poly init xorout => rfl
      | push b => cases hi
      | reset => cases hi
      | get => cases hi
    | illegal why => simp [hd, isInitialiser] at hi
  · simp [edge_next_of_command h hr hv hd, effect]
  · simp [edge_next_of_command h hr hv hd, effect]

/-- Settles O29, by the kind of the edge. -/
theorem errorBitIsNotSticky : Obligations.ErrorBitIsNotSticky := by
  unfold Obligations.ErrorBitIsNotSticky
  refine ⟨reset_respErr, fun p s t h => ⟨fun hr => ?_, fun hr hv => ?_, edge_respErr_iff_illegal h⟩⟩
  · simp [edge_next_of_rst h hr]
  · simp [edge_next_of_idle h hr hv]

/-- Settles O30: in READY a read gives `result`, which is a function of `acc` and `xorout`, and an edge with neither `rst`
nor a word leaves both. -/
theorem crcOutRule : Obligations.CrcOutRule := by
  unfold Obligations.CrcOutRule
  intro s hs
  refine ⟨readCrcOut_of_ready hs, sample_of_ready hs, fun p t h hne => ?_⟩
  have hresult : result t ≠ result s := fun heq =>
    hne (by rw [readCrcOut_of_ready (edge_keeps_ready h hs), readCrcOut_of_ready hs, heq])
  constructor
  · by_contra hsame
    rw [not_or, not_not, not_not] at hsame
    exact hresult (by rw [result, result, hsame.1, hsame.2])
  · by_contra hidle
    rw [not_or, Bool.not_eq_true, Bool.not_eq_true] at hidle
    rw [edge_next_of_idle h hidle.1 hidle.2] at hresult
    exact hresult (result_dropResponse s)

/-- Settles O1, by the table of the reset state and by the two operations that lead to it. -/
theorem hardwareResetState : Obligations.HardwareResetState := by
  unfold Obligations.HardwareResetState
  exact ⟨reset_poly, reset_init, reset_xorout, reset_acc, reset_phase, reset_respValid, reset_respData, reset_respErr,
    readCrcOut_of_ready reset_phase, fun _ _ hr => edge_of_rst hr, exec_initdef, powerUp_phase⟩

/-- Settles O18: the reset state is the second alternative of the invariant, and at power-up the phase is not READY. -/
theorem resetIsResponseCoherent : Obligations.ResetIsResponseCoherent := by
  unfold Obligations.ResetIsResponseCoherent
  exact ⟨fun _ => .inr rfl, fun _ hready => nomatch hready⟩

/-- Settles O26, from the effect of each command and the frame of the commands that do not initialise. -/
theorem commandFrames : Obligations.CommandFrames := by
  unfold Obligations.CommandFrames
  intro s t
  refine ⟨fun i h => ?_, fun b => exec_keeps_configuration rfl, exec_keeps_configuration rfl, fun h => ?_, fun w h => ?_⟩
  · have hphase := phase_of_exec_eq_next h
    obtain rfl := exec_eq_next h
    exact ⟨effect_host i s, hphase, rfl, rfl, rfl⟩
  · simp [exec_eq_next h, effect]
  · simp [(execIllegal_eq_next h).2]

end Sys2Proof.Machine
end

section
/-! PROOFS. Reading never matters (R30, R38): a read is no edge, and a `GET` writes the response register alone, which no
later edge reads. -/

namespace Sys2Proof.Machine

/-- The state with another response register. -/
def setResponse (valid : Bool) (data : Byte) (err : Bool) (s : State) : State :=
  { s with respValid := valid, respData := data, respErr := err }

/-- A command's own response overwrites what stood in the response register, so the outcome is the same state (R97). -/
theorem exec_setResponse (i : Instr) (v : Bool) (d : Byte) (e : Bool) (s : State) :
    exec i (setResponse v d e s) = exec i s := by
  cases i <;> rfl

theorem executeWord_setResponse (w : Word) (v : Bool) (d : Byte) (e : Bool) (s : State) :
    executeWord w (setResponse v d e s) = executeWord w s := by
  cases hd : decode w with
  | command i => simp only [executeWord_of_command hd, exec_setResponse]
  | illegal why => simp only [executeWord_of_illegal hd]; rfl

/-- Only an idle edge keeps something of the response register (R98). -/
theorem edge_setResponse {p : Pins} (h : p.isIdle = false) (v : Bool) (d : Byte) (e : Bool) (s : State) :
    edge p (setResponse v d e s) = edge p s := by
  cases hr : p.rst with
  | true => simp only [edge_of_rst hr]; rfl
  | false =>
    have hv : p.cmdValid = true := by simpa [Pins.isIdle, hr] using h
    simp only [edge_of_word hr hv, executeWord_setResponse]

/-- The four registers at the end of a run, where it has one. -/
def finalRegisters (ps : List Pins) (s : State) : Option Registers :=
  (finalState (edges ps s)).map registers

theorem finalRegisters_cons_of_next {p : Pins} {s t : State} (h : edge p s = .next t) (ps : List Pins) :
    finalRegisters (p :: ps) s = finalRegisters ps t := by
  simp [finalRegisters, h, andThen]

/-- The final registers of a run do not depend on the response register it starts with. -/
theorem finalRegisters_setResponse (ps : List Pins) (v : Bool) (d : Byte) (e : Bool) (s : State) :
    finalRegisters ps (setResponse v d e s) = finalRegisters ps s := by
  induction ps generalizing v d e s with
  | nil => rfl
  | cons p ps ih =>
    cases hidle : p.isIdle with
    | true =>
      have hedge := edge_of_isIdle hidle
      rw [finalRegisters_cons_of_next (hedge _), finalRegisters_cons_of_next (hedge _)]
      calc finalRegisters ps (setResponse false d e s)
        _ = finalRegisters ps s := ih false d e s
        _ = finalRegisters ps (setResponse false s.respData s.respErr s) := (ih false s.respData s.respErr s).symm
    | false => rw [finalRegisters, edges_cons, edge_setResponse hidle]; rfl

/-- An edge that executes `GET`. -/
def isGet (p : Pins) : Bool := !p.rst && p.cmdValid && decide (decode p.cmdWord = .command .get)

/-- In READY a `GET` writes the response register alone (R71). -/
theorem edge_of_isGet {p : Pins} {s : State} (hp : isGet p = true) (hs : s.phase = .ready) :
    edge p s = .next (setResponse true (result s) false s) := by
  simp only [isGet, Bool.and_eq_true, Bool.not_eq_true', decide_eq_true_eq] at hp
  obtain ⟨⟨hr, hv⟩, hd⟩ := hp
  exact (edge_of_command hr hv hd).trans (whenReady_of_ready hs)

/-- The `GET`s of a run in READY may be left out. -/
theorem finalRegisters_filter_not_isGet (ps : List Pins) {s : State} (hs : s.phase = .ready) :
    finalRegisters (ps.filter fun p => !isGet p) s = finalRegisters ps s := by
  induction ps generalizing s with
  | nil => rfl
  | cons p ps ih =>
    cases hp : isGet p with
    | true =>
      rw [List.filter_cons_of_neg (by simp [hp]), finalRegisters_cons_of_next (edge_of_isGet hp hs),
        finalRegisters_setResponse, ih hs]
    | false =>
      rw [List.filter_cons_of_pos (by simp [hp])]
      cases he : edge p s with
      | next t => rw [finalRegisters_cons_of_next he, finalRegisters_cons_of_next he, ih (edge_keeps_ready he hs)]
      | fault f => simp [finalRegisters, he, andThen, finalState]
      | refused r => simp [finalRegisters, he, andThen, finalState]

/-- In READY the moves of a host that keeps the power on are its edges: a read goes on from the same state (R38). -/
theorem moves_eq_edges (ms : List HostMove) {s : State} (hs : s.phase = .ready) (hms : ∀ m ∈ ms, m ≠ .powerCycle) :
    moves ms s = edges (edgeInputs ms) s := by
  induction ms generalizing s with
  | nil => rfl
  | cons m ms ih =>
    obtain ⟨hm, hrest⟩ := List.forall_mem_cons.1 hms
    cases m with
    | edge p =>
      rw [moves, move, edgeInputs, edges_cons]
      cases he : edge p s with
      | next t => exact ih (edge_keeps_ready he hs) hrest
      | fault f => rfl
      | refused r => rfl
    | read o => rw [moves, move, edgeInputs, sample_of_ready hs]; exact ih hs hrest
    | powerCycle => exact absurd rfl hm

/-- Settles O32, by induction over the moves and over the inputs. -/
theorem readingNeverMatters : Obligations.ReadingNeverMatters := by
  unfold Obligations.ReadingNeverMatters
  exact ⟨fun ms _ hs hms => moves_eq_edges ms hs hms, fun ps _ hs => (finalRegisters_filter_not_isGet ps hs).symm⟩

end Sys2Proof.Machine
end

section
/-! PROOFS. One accepted command, from the host's word to the next state: the word of a command decodes to it (R47, R50), the
edge that presents it does it (R95), and in phase READY that leaves its effect with `result` of it as the response (R27). -/

namespace Sys2Proof

open Sys2Proof.Machine

/-! ## The word of a command -/

/-- The shift-and-or form of a word is its fields side by side (R47). -/
theorem wordOf_eq_append (c : CW) : wordOf c = c.C ++ c.B ++ c.A ++ c.Z ++ c.OP := by
  have h := BitVec.setWidth_eq (c.C ++ c.B ++ c.A ++ c.Z ++ c.OP)
  simp only [BitVec.setWidth_append_eq_shiftLeft_setWidth_or, BitVec.shiftLeft_or_distrib, ← BitVec.shiftLeft_add] at h
  exact h

/-- Each field stands at its place (R47). -/
theorem getLsbD_wordOf (c : CW) (i : Nat) : (wordOf c).getLsbD i =
    if i < 3 then c.OP.getLsbD i else if i < 8 then c.Z.getLsbD (i - 3) else if i < 16 then c.A.getLsbD (i - 8)
    else if i < 24 then c.B.getLsbD (i - 16) else c.C.getLsbD (i - 24) := by
  rw [wordOf_eq_append]
  grind

@[simp] theorem fieldC_wordOf (c : CW) : fieldC (wordOf c) = c.C := by
  ext i hi
  grind [fieldC, getLsbD_wordOf]

@[simp] theorem fieldB_wordOf (c : CW) : fieldB (wordOf c) = c.B := by
  ext i hi
  grind [fieldB, getLsbD_wordOf]

@[simp] theorem fieldA_wordOf (c : CW) : fieldA (wordOf c) = c.A := by
  ext i hi
  grind [fieldA, getLsbD_wordOf]

@[simp] theorem fieldZ_wordOf (c : CW) : fieldZ (wordOf c) = c.Z := by
  ext i hi
  grind [fieldZ, getLsbD_wordOf]

@[simp] theorem fieldOP_wordOf (c : CW) : fieldOP (wordOf c) = c.OP := by
  ext i hi
  grind [fieldOP, getLsbD_wordOf]

/-- The check of `PUSH` passes where the two upper fields are zero (R50). -/
theorem upperHalfZero_of_fields {w : Word} (hC : fieldC w = 0#8) (hB : fieldB w = 0#8) : upperHalfZero w = true := by
  have happ : fieldC w ++ fieldB w = w.extractLsb' 16 16 := BitVec.extractLsb'_append_extractLsb'_eq_extractLsb' rfl
  rw [upperHalfZero, beq_iff_eq, ← happ, hC, hB]
  rfl

/-- Decoding a command's word gives the command back (R50). -/
theorem decode_encode (i : Instr) : decode (encode i) = .command i := by
  cases i with
  | initdef => rfl
  | initcus poly init xorout => simp [decode, encode, encodeFields]
  | push b =>
    have hupper : upperHalfZero (wordOf (encodeFields (.push b))) = true :=
      upperHalfZero_of_fields (fieldC_wordOf _) (fieldB_wordOf _)
    simp only [encode, decode, fieldZ_wordOf, fieldOP_wordOf, fieldA_wordOf, hupper]
    rfl
  | reset => rfl
  | get => rfl

end Sys2Proof

namespace Sys2Proof.Machine

/-! ## The command at its edge -/

/-- The edge that presents a command does it (R95). -/
@[simp] theorem edge_command (i : Instr) : edge (Pins.command i) = exec i :=
  funext fun _ => edge_of_command rfl rfl (decode_encode i)

theorem effect_phase_of_ready {i : Instr} {s : State} (hs : s.phase = .ready) : (effect i s).phase = .ready := by
  cases i with
  | initdef => rfl
  | initcus poly init xorout => rfl
  | push b => exact hs
  | reset => exact hs
  | get => exact hs

/-- In READY every command leaves its effect with `result` of it as the response (R27, R95). -/
theorem exec_of_ready {i : Instr} {s : State} (hs : s.phase = .ready) :
    exec i s = .next (respond (result (effect i s)) false (effect i s)) := by
  cases i with
  | initdef => rfl
  | initcus poly init xorout => rfl
  | push b => exact whenReady_of_ready hs
  | reset => exact whenReady_of_ready hs
  | get => exact whenReady_of_ready hs

/-- A command does not look at the response of the one before it (R97). -/
@[simp] theorem exec_respond (i : Instr) (d : Byte) (e : Bool) (s : State) : exec i (respond d e s) = exec i s :=
  exec_setResponse i true d e s

end Sys2Proof.Machine
end

section
/-! PROOFS. Two commands in a row (R38, R41, R99): the second sees the whole effect of the first, and a command that adds
nothing to its own effect is idempotent. -/

namespace Sys2Proof.Machine

/-- A command whose effect on its own effect is none may be issued again (R38). -/
theorem exec_again {i : Instr} {s t : State} (hi : effect i (effect i s) = effect i s) (h : exec i s = .next t) :
    exec i t = .next t := by
  have ht := exec_eq_next h
  have hphase : (effect i s).phase = .ready := by simpa [ht] using phase_of_exec_eq_next h
  rw [ht, exec_respond, exec_of_ready hphase, hi]

/-- Settles O31: the four commands add nothing to their own effect, and `PUSH 0x12` after reset moves the accumulator to `0x60`
and, issued again, on from there. -/
theorem readsAndIdempotentCommands : Obligations.ReadsAndIdempotentCommands := by
  unfold Obligations.ReadsAndIdempotentCommands
  refine ⟨fun o s hs => sample_of_ready hs, fun s t h => ⟨?_, exec_again rfl h⟩, fun s t => exec_again rfl,
    fun s t => exec_again rfl, fun p i x s t => exec_again rfl, 0x12#8, State.reset, _, exec_of_ready reset_phase, ?_⟩
  · rw [exec_eq_next h]
    rfl
  · intro hagain
    exact absurd (congrArg State.acc (exec_eq_next hagain)) (by decide)

@[simp] theorem edges_singleton (p : Pins) : edges [p] = edge p := by
  funext s
  rw [edges_cons]
  cases edge p s <;> rfl

theorem edges_pair (p q : Pins) (s : State) : edges [p, q] s = andThen (edge p s) (edge q) := by
  rw [edges_cons, edges_singleton]

/-- In READY two commands in a row leave the second's effect on the first's, with the second's response (R99). -/
theorem edges_commands_of_ready (i j : Instr) {s : State} (hs : s.phase = .ready) :
    edges [Pins.command i, Pins.command j] s =
      .next (respond (result (effect j (effect i s))) false (effect j (effect i s))) := by
  rw [edges_pair, edge_command, exec_of_ready hs]
  simp only [andThen, edge_command, exec_respond]
  exact exec_of_ready (effect_phase_of_ready hs)

/-- A first byte after a hardware reset is the step from the default configuration, whose `xorout` is zero (R59). -/
theorem exec_push_hardwareReset (b : Byte) (s : State) : exec (.push b) (hardwareReset s) =
    .next (respond (crc8Step 0xB7#8 0xFF#8 b) false (setAcc (crc8Step 0xB7#8 0xFF#8 b) (hardwareReset s))) := by
  have hready : (hardwareReset s).phase = .ready := rfl
  simp [exec_of_ready hready, effect]

/-- Settles O14: `edges_pair` is the general law, and each pair is the effect of its second command on that of its first. -/
theorem nextCommandSeesFullEffect : Obligations.NextCommandSeesFullEffect := by
  unfold Obligations.NextCommandSeesFullEffect
  refine ⟨fun i j s => ?_, fun p i x b s => ?_, fun q b s hq => ?_, fun b c w why s hs hw => ?_⟩
  · rw [edges_pair, edge_command, edge_command]
  · rw [edges_pair, edge_command, edge_command]
    rfl
  · rw [edges_pair, edge_command]
    obtain rfl | hr := hq
    · rw [edge_command, exec_initdef]
      exact exec_push_hardwareReset b s
    · rw [edge_of_rst hr]
      exact exec_push_hardwareReset b s
  · have hword : edge (Pins.word w) s = .next (respond (result s) true s) :=
      (edge_of_illegal rfl rfl hw).trans (whenReady_of_ready hs)
    refine ⟨edges_commands_of_ready (.push b) .get hs, edges_commands_of_ready (.push b) .reset hs,
      edges_commands_of_ready (.push b) (.push c) hs, edges_commands_of_ready .reset (.push b) hs, ?_⟩
    rw [edges_pair, hword]
    simp only [andThen, edge_command, exec_respond]
    exact exec_of_ready hs

end Sys2Proof.Machine
end

section
/-! PROOFS. Several hosts on one port (R43): what a merge of two lists can be, and what a `BATCH` leaves and answers when
any edges follow it. -/

namespace Sys2Proof.Machine

/-! ## Merges -/

section
variable {α β : Type}

theorem Interleaves.eq_of_nil_left {ys zs : List α} (h : Interleaves [] ys zs) : zs = ys := by
  induction ys generalizing zs with
  | nil => cases h; rfl
  | cons y ys ih => cases h with | right h => rw [ih h]

theorem Interleaves.map (f : α → β) {xs ys zs : List α} (h : Interleaves xs ys zs) :
    Interleaves (xs.map f) (ys.map f) (zs.map f) := by
  induction h with
  | nil => exact .nil
  | left _ ih => exact .left ih
  | right _ ih => exact .right ih

/-- The first host may issue one more input once the merge is over. -/
theorem Interleaves.concat_left (x : α) {xs ys zs : List α} (h : Interleaves xs ys zs) :
    Interleaves (xs ++ [x]) ys (zs ++ [x]) := by
  induction h with
  | nil => exact .left .nil
  | left _ ih => exact .left ih
  | right _ ih => exact .right ih

/-- A merge of mapped lists is a mapped merge of the lists. -/
theorem Interleaves.of_map {f : α → β} {xs ys : List α} {zs : List β} (h : Interleaves (xs.map f) (ys.map f) zs) :
    ∃ ms, zs = ms.map f ∧ Interleaves xs ys ms := by
  generalize hxs : xs.map f = xs', hys : ys.map f = ys' at h
  induction h generalizing xs ys with
  | nil =>
    obtain rfl := List.map_eq_nil_iff.1 hxs
    obtain rfl := List.map_eq_nil_iff.1 hys
    exact ⟨[], rfl, .nil⟩
  | left _ ih =>
    obtain ⟨x, xs, rfl, rfl, htail⟩ := List.map_eq_cons_iff.1 hxs
    obtain ⟨ms, rfl, hms⟩ := ih htail hys
    exact ⟨x :: ms, rfl, .left hms⟩
  | right _ ih =>
    obtain ⟨y, ys, rfl, rfl, htail⟩ := List.map_eq_cons_iff.1 hys
    obtain ⟨ms, rfl, hms⟩ := ih hxs htail
    exact ⟨y :: ms, rfl, .right hms⟩

/-- Where the first host ends with `x`, the second is split into what comes before that `x` and what comes after it. -/
theorem Interleaves.of_concat_left {x : α} {xs ys zs : List α} (h : Interleaves (xs ++ [x]) ys zs) :
    ∃ before after ms, ys = before ++ after ∧ Interleaves xs before ms ∧ zs = ms ++ x :: after := by
  generalize hxs : xs ++ [x] = xs' at h
  induction h generalizing xs with
  | nil => simp at hxs
  | @left x' xs' ys zs h ih =>
    cases xs with
    | nil =>
      obtain ⟨rfl, rfl⟩ := List.cons.inj hxs
      exact ⟨[], ys, [], rfl, .nil, by rw [h.eq_of_nil_left]; rfl⟩
    | cons a xs =>
      obtain ⟨rfl, htail⟩ := List.cons.inj hxs
      obtain ⟨before, after, ms, rfl, hms, rfl⟩ := ih htail
      exact ⟨before, after, a :: ms, rfl, .left hms, rfl⟩
  | @right y xs' ys zs h ih =>
    obtain ⟨before, after, ms, rfl, hms, rfl⟩ := ih hxs
    exact ⟨y :: before, after, y :: ms, rfl, .right hms, rfl⟩

end

/-! ## A `BATCH` -/

theorem batchPins_cons (b : Byte) (bs : List Byte) : batchPins (b :: bs) = Pins.command (.push b) :: batchPins bs := rfl

/-- A `BATCH` leaves the fold over its bytes in the accumulator and answers it XOR `xorout` (R73). -/
theorem edges_batchPins (bs : List Byte) {s : State} (hs : s.phase = .ready) :
    edges (batchPins bs) s =
      .next (respond (crc8Fold s.poly s.acc bs ^^^ s.xorout) false (setAcc (crc8Fold s.poly s.acc bs) s)) := by
  induction bs generalizing s with
  | nil =>
    have hget : batchPins [] = [Pins.command .get] := rfl
    rw [hget, edges_singleton, edge_command]
    exact exec_of_ready hs
  | cons b bs ih =>
    rw [batchPins_cons, edges_cons, edge_command, exec_of_ready hs]
    exact ih (effect_phase_of_ready hs)

theorem responses_cons_of_next {p : Pins} {s t : State} (h : edge p s = .next t) (ps : List Pins) :
    responses (p :: ps) s = responseNow t ++ responses ps t := by
  simp [responses, h]

/-- In READY a command gives its one response, and then the others follow (R97). -/
theorem responses_command_cons {i : Instr} {s : State} (hs : s.phase = .ready) (ps : List Pins) :
    responses (Pins.command i :: ps) s = ⟨result (effect i s), false⟩ ::
      responses ps (respond (result (effect i s)) false (effect i s)) := by
  have hedge : edge (Pins.command i) s = .next (respond (result (effect i s)) false (effect i s)) := by
    rw [edge_command, exec_of_ready hs]
  exact responses_cons_of_next hedge ps

/-- The response of the `GET` of a `BATCH` comes after one for each byte, whatever edges follow (R73). -/
theorem responses_batchPins_getElem? (bs : List Byte) (ps : List Pins) {s : State} (hs : s.phase = .ready) :
    (responses (batchPins bs ++ ps) s)[bs.length]? = some ⟨crc8Fold s.poly s.acc bs ^^^ s.xorout, false⟩ := by
  induction bs generalizing s with
  | nil => exact congrArg (·[0]?) (responses_command_cons (i := .get) hs ps)
  | cons b bs ih =>
    rw [batchPins_cons, List.cons_append, responses_command_cons hs, List.length_cons, List.getElem?_cons_succ]
    exact ih (effect_phase_of_ready hs)

/-- Settles O47: the other host's pushes are split at the `GET` of the `BATCH`, and those before it are merged with the
`BATCH`'s own. From reset, `0x63` merged into the `BATCH` of `0x12` changes its fold. -/
theorem sharedPortInterleavings : Obligations.SharedPortInterleavings := by
  unfold Obligations.SharedPortInterleavings
  refine ⟨fun s xs ys zs hs h => ?_, fun xs ys ms h => (h.map _).concat_left _, ?_⟩
  · obtain ⟨pinsBefore, pinsAfter, pinsMerged, hys, hmerged, rfl⟩ := h.of_concat_left
    obtain ⟨before, after, rfl, rfl, rfl⟩ := List.map_eq_append_iff.1 hys
    obtain ⟨ms, rfl, hms⟩ := hmerged.of_map
    have hzs : pushPins ms ++ Pins.command .get :: pushPins after = batchPins ms ++ pushPins after := by
      rw [batchPins, List.append_assoc, List.singleton_append]
    exact ⟨before, after, ms, rfl, hms, hzs, edges_batchPins ms hs, hzs ▸ responses_batchPins_getElem? ms _ hs⟩
  · have hown : crc8Step 0xB7#8 0xFF#8 0x12#8 = 0x60#8 := by decide
    have hother : crc8Step 0xB7#8 0x60#8 0x63#8 ≠ 0x60#8 := by decide
    refine ⟨[0x12#8], [0x63#8], [0x12#8, 0x63#8], .left (.right .nil), ?_⟩
    simpa only [crc8Fold_cons, crc8Fold_nil, reset_poly, reset_acc, hown] using hother

end Sys2Proof.Machine
end

section
/-! PROOFS. The command word (R47 to R52, R57): a word is its five fields, it decodes to a command exactly when it has that
command's fields, and what the rules say of words is said of their fields. -/

namespace Sys2Proof

open Sys2Proof.Machine

/-! ## Words and fields -/

@[simp] theorem fieldsOf_wordOf (c : CW) : fieldsOf (wordOf c) = c := by
  simp [fieldsOf]

/-- A word is its fields side by side: no bit stands outside them (R47). -/
@[simp] theorem wordOf_fieldsOf (w : Word) : wordOf (fieldsOf w) = w := by
  rw [wordOf_eq_append]
  have hw : w.extractLsb' 0 32 = w := BitVec.extractLsb'_eq_self
  have hCB : fieldC w ++ fieldB w = w.extractLsb' 16 16 := BitVec.extractLsb'_append_extractLsb'_eq_extractLsb' rfl
  have hCA : w.extractLsb' 16 16 ++ fieldA w = w.extractLsb' 8 24 :=
    BitVec.extractLsb'_append_extractLsb'_eq_extractLsb' rfl
  have hCZ : w.extractLsb' 8 24 ++ fieldZ w = w.extractLsb' 3 29 :=
    BitVec.extractLsb'_append_extractLsb'_eq_extractLsb' rfl
  have hOP : w.extractLsb' 3 29 ++ fieldOP w = w.extractLsb' 0 32 :=
    BitVec.extractLsb'_append_extractLsb'_eq_extractLsb' rfl
  simp only [fieldsOf, hCB, hCA, hCZ, hOP, hw]

/-- Two words with the same fields are the same word. -/
theorem fieldsOf_inj {w v : Word} : fieldsOf w = fieldsOf v ↔ w = v :=
  (Function.LeftInverse.injective wordOf_fieldsOf).eq_iff

@[simp] theorem fieldC_and (w v : Word) : fieldC (w &&& v) = fieldC w &&& fieldC v := BitVec.extractLsb'_and
@[simp] theorem fieldB_and (w v : Word) : fieldB (w &&& v) = fieldB w &&& fieldB v := BitVec.extractLsb'_and
@[simp] theorem fieldA_and (w v : Word) : fieldA (w &&& v) = fieldA w &&& fieldA v := BitVec.extractLsb'_and
@[simp] theorem fieldZ_and (w v : Word) : fieldZ (w &&& v) = fieldZ w &&& fieldZ v := BitVec.extractLsb'_and
@[simp] theorem fieldOP_and (w v : Word) : fieldOP (w &&& v) = fieldOP w &&& fieldOP v := BitVec.extractLsb'_and

/-- A masked word is a given word exactly when every field, masked, is that word's. -/
theorem and_wordOf_eq_iff (w : Word) (m v : CW) : w &&& wordOf m = wordOf v ↔
    fieldC w &&& m.C = v.C ∧ fieldB w &&& m.B = v.B ∧ fieldA w &&& m.A = v.A ∧ fieldZ w &&& m.Z = v.Z ∧
      fieldOP w &&& m.OP = v.OP := by
  obtain ⟨C, B, A, Z, OP⟩ := v
  rw [← fieldsOf_inj, fieldsOf_wordOf]
  simp [fieldsOf]

/-! ## Decoding by fields -/

theorem append_eq_zero_iff {m n : Nat} (x : BitVec m) (y : BitVec n) :
    x ++ y = 0#(m + n) ↔ x = 0#m ∧ y = 0#n := by
  simp [← BitVec.toNat_inj, Nat.or_eq_zero_iff, Nat.shiftLeft_eq]

/-- The check of `PUSH` looks at `C` and `B` (R50). -/
theorem upperHalfZero_iff (w : Word) : upperHalfZero w = true ↔ fieldC w = 0#8 ∧ fieldB w = 0#8 := by
  have happ : fieldC w ++ fieldB w = w.extractLsb' 16 16 := BitVec.extractLsb'_append_extractLsb'_eq_extractLsb' rfl
  rw [upperHalfZero, beq_iff_eq, ← happ]
  exact append_eq_zero_iff _ _

/-- The check of the commands without operand looks at `C`, `B` and `A` (R50). -/
theorem highBitsZero_iff (w : Word) :
    highBitsZero w = true ↔ (fieldC w = 0#8 ∧ fieldB w = 0#8) ∧ fieldA w = 0#8 := by
  have happ : w.extractLsb' 16 16 ++ fieldA w = w.extractLsb' 8 24 :=
    BitVec.extractLsb'_append_extractLsb'_eq_extractLsb' rfl
  rw [← upperHalfZero_iff, highBitsZero, upperHalfZero, beq_iff_eq, beq_iff_eq, ← happ]
  exact append_eq_zero_iff _ _

/-- A check of the decoder gives its command exactly when it passes (R50). -/
theorem ite_illegal_eq_command {c : Bool} {i j : Instr} {why : Illegal} :
    (if c then Decoded.command j else .illegal why) = .command i ↔ c = true ∧ j = i := by
  cases c <;> simp

/-- A word decodes to a command exactly when it has that command's fields. -/
theorem decode_eq_command_iff_fields {w : Word} {i : Instr} :
    decode w = .command i ↔ fieldsOf w = encodeFields i := by
  constructor
  · intro h
    unfold decode at h
    split at h
    · cases h
    next hZ =>
      simp only [bne_iff_ne, ne_eq, not_not] at hZ
      split at h
      case h_2 hOP =>
        cases h
        simp [fieldsOf, encodeFields, hZ, hOP]
      case h_3 hOP =>
        obtain ⟨hzero, rfl⟩ := ite_illegal_eq_command.1 h
        simp [fieldsOf, encodeFields, hZ, hOP, (upperHalfZero_iff w).1 hzero]
      case h_6 => cases h
      all_goals
        next hOP =>
          obtain ⟨hzero, rfl⟩ := ite_illegal_eq_command.1 h
          simp [fieldsOf, encodeFields, hZ, hOP, (highBitsZero_iff w).1 hzero]
  · intro h
    rw [← wordOf_fieldsOf w, h]
    exact decode_encode i

/-- A word decodes to a command exactly when it is that command's word. -/
theorem decode_eq_command_iff {w : Word} {i : Instr} : decode w = .command i ↔ encode i = w := by
  rw [decode_eq_command_iff_fields, ← fieldsOf_wordOf (encodeFields i), fieldsOf_inj, eq_comm, encode]

/-- Settles O51, from the fields a decoded word has. -/
theorem decodeEncodeAgree : Obligations.DecodeEncodeAgree := by
  unfold Obligations.DecodeEncodeAgree
  exact ⟨decode_encode, fun _ _ => decode_eq_command_iff.1⟩

/-- Settles O52: words and fields are two readings of the same bits. -/
theorem fieldsTileTheWord : Obligations.FieldsTileTheWord := by
  unfold Obligations.FieldsTileTheWord
  exact ⟨wordOf_fieldsOf, fieldsOf_wordOf, fun i => fieldsOf_wordOf (encodeFields i)⟩

/-- Settles O53: a decoded word's fields are the operands, and the word of a command decodes to it whatever they are. -/
theorem operandsBitForBit : Obligations.OperandsBitForBit := by
  unfold Obligations.OperandsBitForBit
  refine ⟨fun w p i x h k hk => ?_, fun w b h k hk => ?_, fun p i x => ⟨_, decode_encode _⟩,
    fun b => ⟨_, decode_encode _⟩⟩
  · have hfields := decode_eq_command_iff_fields.1 h
    obtain ⟨rfl, rfl, rfl⟩ : fieldA w = p ∧ fieldB w = i ∧ fieldC w = x :=
      ⟨congrArg CW.A hfields, congrArg CW.B hfields, congrArg CW.C hfields⟩
    simp [fieldA, fieldB, fieldC, hk]
  · obtain rfl : fieldA w = b := congrArg CW.A (decode_eq_command_iff_fields.1 h)
    simp [fieldA, hk]

/-- Settles O56: a word of the table decodes to its command because it is the command's word. -/
theorem workedEncodings : Obligations.WorkedEncodings := by
  unfold Obligations.WorkedEncodings
  simp only [decode_eq_command_iff]
  decide

/-! ## Illegal words -/

theorem exists_illegal_iff {w : Word} : (∃ why, decode w = .illegal why) ↔ ¬ ∃ i, decode w = .command i := by
  cases decode w with
  | command i => simp
  | illegal why => simp

/-- Fields that meet every check of R52 are those of a command. -/
theorem exists_encodeFields_of_wellFormed {c : CW} (h : c.wellFormed = true) : ∃ i, encodeFields i = c := by
  obtain ⟨C, B, A, Z, OP⟩ := c
  simp only [CW.wellFormed, CW.opcodeAssigned, CW.zZero, CW.noOperandFieldsZero, CW.pushFieldsZero, Bool.and_eq_true,
    Bool.or_eq_true, beq_iff_eq, Bool.not_eq_true'] at h
  obtain ⟨⟨⟨hOP, rfl⟩, hbare⟩, hpush⟩ := h
  obtain (((rfl | rfl) | rfl) | rfl) | rfl := hOP
  · obtain ⟨⟨rfl, rfl⟩, rfl⟩ : (A = 0#8 ∧ B = 0#8) ∧ C = 0#8 := by simpa using hbare
    exact ⟨.initdef, rfl⟩
  · exact ⟨.initcus A B C, rfl⟩
  · obtain ⟨rfl, rfl⟩ : B = 0#8 ∧ C = 0#8 := by simpa using hpush
    exact ⟨.push A, rfl⟩
  · obtain ⟨⟨rfl, rfl⟩, rfl⟩ : (A = 0#8 ∧ B = 0#8) ∧ C = 0#8 := by simpa using hbare
    exact ⟨.reset, rfl⟩
  · obtain ⟨⟨rfl, rfl⟩, rfl⟩ : (A = 0#8 ∧ B = 0#8) ∧ C = 0#8 := by simpa using hbare
    exact ⟨.get, rfl⟩

theorem encodeFields_wellFormed (i : Instr) : (encodeFields i).wellFormed = true := by
  cases i with
  | initdef => exact Laws.EncodingWellFormed.initdef
  | initcus poly init xorout => exact Laws.EncodingWellFormed.initcus poly init xorout
  | push b => exact Laws.EncodingWellFormed.push b
  | reset => exact Laws.EncodingWellFormed.reset
  | get => exact Laws.EncodingWellFormed.get

/-- A word is illegal exactly when its fields fail a check of R52. -/
theorem exists_illegal_iff_wellFormed (w : Word) :
    (∃ why, decode w = .illegal why) ↔ (fieldsOf w).wellFormed = false := by
  rw [exists_illegal_iff, ← Bool.not_eq_true, not_iff_not]
  constructor
  · rintro ⟨i, hi⟩
    rw [decode_eq_command_iff_fields.1 hi]
    exact encodeFields_wellFormed i
  · intro h
    obtain ⟨i, hi⟩ := exists_encodeFields_of_wellFormed h
    exact ⟨i, decode_eq_command_iff_fields.2 hi.symm⟩

/-- The three opcodes of R52 (a) are those that R49 does not assign. -/
theorem opcodeAssigned_eq_false_iff (c : CW) :
    c.opcodeAssigned = false ↔ c.OP = 0b000#3 ∨ c.OP = 0b110#3 ∨ c.OP = 0b111#3 := by
  have hall : ∀ op : BitVec 3,
      (op == 0b001#3 || op == 0b010#3 || op == 0b011#3 || op == 0b100#3 || op == 0b101#3) = false ↔
      op = 0b000#3 ∨ op = 0b110#3 ∨ op = 0b111#3 := by decide
  exact hall c.OP

/-- The checks of R52, with (a), (b) and (c) written out. -/
theorem wellFormed_eq_false_iff (c : CW) : c.wellFormed = false ↔
    (c.OP = 0b000#3 ∨ c.OP = 0b110#3 ∨ c.OP = 0b111#3) ∨ c.Z ≠ 0#5 ∨
    ((c.OP = 0b001#3 ∨ c.OP = 0b100#3 ∨ c.OP = 0b101#3) ∧ ¬(c.A = 0#8 ∧ c.B = 0#8 ∧ c.C = 0#8)) ∨
    (c.OP = 0b011#3 ∧ ¬(c.B = 0#8 ∧ c.C = 0#8)) := by
  simp only [CW.wellFormed, Bool.and_eq_false_iff, opcodeAssigned_eq_false_iff, or_assoc]
  grind [CW.zZero, CW.noOperandFieldsZero, CW.pushFieldsZero]

/-- Settles O55, from the checks of R52 and from the response of an illegal word in READY. -/
theorem illegalExactlyWhen : Obligations.IllegalExactlyWhen := by
  unfold Obligations.IllegalExactlyWhen
  refine ⟨fun w => (exists_illegal_iff_wellFormed w).trans (wellFormed_eq_false_iff (fieldsOf w)),
    exists_illegal_iff_wellFormed, ?_, _, rfl⟩
  rintro w s hs ⟨why, hw⟩
  exact (executeWord_of_illegal hw).trans (whenReady_of_ready hs)

/-! ## The mask/match table -/

/-- The five rows of R49. -/
theorem exists_instr {P : Instr → Prop} : (∃ j, P j) ↔
    P .initdef ∨ (∃ p i x, P (.initcus p i x)) ∨ (∃ b, P (.push b)) ∨ P .reset ∨ P .get := by
  constructor
  · rintro ⟨j, hj⟩
    cases j with
    | initdef => exact .inl hj
    | initcus p i x => exact .inr (.inl ⟨p, i, x, hj⟩)
    | push b => exact .inr (.inr (.inl ⟨b, hj⟩))
    | reset => exact .inr (.inr (.inr (.inl hj)))
    | get => exact .inr (.inr (.inr (.inr hj)))
  · rintro (h | ⟨p, i, x, h⟩ | ⟨b, h⟩ | h | h)
    all_goals exact ⟨_, h⟩

/-- A row that fixes every bit is matched by one command's word. -/
theorem and_eq_bare_iff {i : Instr} {v : Word} (hv : encode i = v) (w : Word) :
    w &&& 0xFFFFFFFF#32 = v ↔ decode w = .command i := by
  have hmask : 0xFFFFFFFF#32 = BitVec.allOnes 32 := rfl
  rw [hmask, BitVec.and_allOnes, decode_eq_command_iff, hv, eq_comm]

/-- The row of `INITCUS` fixes `Z` and `OP`. -/
theorem and_eq_initcus_iff (w : Word) :
    w &&& 0x000000FF#32 = 0x00000002#32 ↔ ∃ p i x, decode w = .command (.initcus p i x) := by
  have hmask : 0x000000FF#32 = wordOf ⟨0#8, 0#8, 0#8, .allOnes 5, .allOnes 3⟩ := by decide
  have hvalue : 0x00000002#32 = wordOf ⟨0#8, 0#8, 0#8, 0#5, 0b010#3⟩ := by decide
  rw [hmask, hvalue, and_wordOf_eq_iff]
  simp only [BitVec.and_allOnes]
  simp [decode_eq_command_iff_fields, fieldsOf, encodeFields]

/-- The row of `PUSH` fixes every field but `A`. -/
theorem and_eq_push_iff (w : Word) : w &&& 0xFFFF00FF#32 = 0x00000003#32 ↔ ∃ b, decode w = .command (.push b) := by
  have hmask : 0xFFFF00FF#32 = wordOf ⟨.allOnes 8, .allOnes 8, 0#8, .allOnes 5, .allOnes 3⟩ := by decide
  have hvalue : 0x00000003#32 = wordOf ⟨0#8, 0#8, 0#8, 0#5, 0b011#3⟩ := by decide
  rw [hmask, hvalue, and_wordOf_eq_iff]
  simp only [BitVec.and_allOnes]
  simp [decode_eq_command_iff_fields, fieldsOf, encodeFields]

/-- A word matches a row exactly when it decodes to that row's command (R51). -/
theorem rowMatches_iff_decode {r : EncodingRow} (hr : r ∈ encodingTable) (w : Word) :
    rowMatches r w = true ↔ ∃ i, decode w = .command i ∧ mnemonicOf i = r.mnemonic := by
  rw [rowMatches, beq_iff_eq]
  simp only [encodingTable, List.mem_cons, List.not_mem_nil, or_false] at hr
  obtain rfl | rfl | rfl | rfl | rfl := hr
  · simpa [exists_instr, mnemonicOf] using and_eq_bare_iff (i := .initdef) (v := 1#32) rfl w
  · simpa [exists_instr, mnemonicOf] using and_eq_initcus_iff w
  · simpa [exists_instr, mnemonicOf] using and_eq_push_iff w
  · simpa [exists_instr, mnemonicOf] using and_eq_bare_iff (i := .reset) (v := 4#32) rfl w
  · simpa [exists_instr, mnemonicOf] using and_eq_bare_iff (i := .get) (v := 5#32) rfl w

theorem exists_row (i : Instr) : ∃ r ∈ encodingTable, mnemonicOf i = r.mnemonic := by
  cases i <;> simp [encodingTable, mnemonicOf]

/-- Rows with different mnemonics share no word, since a word decodes to one command. -/
theorem not_rowMatches_both {r r' : EncodingRow} (hr : r ∈ encodingTable) (hr' : r' ∈ encodingTable)
    (hne : r.mnemonic ≠ r'.mnemonic) (w : Word) : ¬(rowMatches r w = true ∧ rowMatches r' w = true) := by
  rw [rowMatches_iff_decode hr, rowMatches_iff_decode hr']
  rintro ⟨⟨i, hi, hm⟩, j, hj, hm'⟩
  obtain rfl : i = j := Decoded.command.inj (hi.symm.trans hj)
  exact hne (hm.symm.trans hm')

/-- A command is its mnemonic with its operands (R49). -/
def instrShape : Instr ≃ Unit ⊕ (Byte × Byte × Byte) ⊕ Byte ⊕ Unit ⊕ Unit where
  toFun
    | .initdef => .inl ()
    | .initcus poly init xorout => .inr (.inl (poly, init, xorout))
    | .push b => .inr (.inr (.inl b))
    | .reset => .inr (.inr (.inr (.inl ())))
    | .get => .inr (.inr (.inr (.inr ())))
  invFun
    | .inl _ => .initdef
    | .inr (.inl (poly, init, xorout)) => .initcus poly init xorout
    | .inr (.inr (.inl b)) => .push b
    | .inr (.inr (.inr (.inl _))) => .reset
    | .inr (.inr (.inr (.inr _))) => .get
  left_inv i := by cases i <;> rfl
  right_inv := by rintro (_ | _ | _ | _ | _) <;> rfl

theorem card_instr : Nat.card Instr = 16777475 := by
  have hbyte : Nat.card Byte = 2 ^ 8 := by
    rw [Nat.card_congr BitVec.equivFin.toEquiv, Nat.card_fin]
  rw [Nat.card_congr instrShape]
  norm_num only [Nat.card_sum, Nat.card_prod, Nat.card_unique, hbyte]

/-- The legal words are as many as the commands. -/
theorem card_legal_words : Nat.card { w : Word // ∃ i, decode w = .command i } = Nat.card Instr := by
  refine (Nat.card_eq_of_bijective (fun i => ⟨encode i, i, decode_encode i⟩) ⟨fun i j hij => ?_, ?_⟩).symm
  · have hword : encode i = encode j := congrArg Subtype.val hij
    rw [← decode_eq_command_iff, decode_encode] at hword
    exact (Decoded.command.inj hword).symm
  · rintro ⟨w, i, hw⟩
    exact ⟨i, Subtype.ext (decode_eq_command_iff.1 hw)⟩

/-- Settles O54: each row is matched by exactly the words of its command, so that disjointness and illegality are those of
`decode`, and the legal words are as many as the commands. -/
theorem maskMatchTable : Obligations.MaskMatchTable := by
  unfold Obligations.MaskMatchTable
  have hmnemonics : encodingTable.Pairwise (fun r r' => r.mnemonic ≠ r'.mnemonic) := by decide
  refine ⟨rfl, by decide, fun r hr w => rowMatches_iff_decode hr w,
    hmnemonics.imp_of_mem fun hr hr' hne w => not_rowMatches_both hr hr' hne w, fun w hw => ?_,
    card_legal_words.trans card_instr⟩
  rw [exists_illegal_iff]
  rintro ⟨i, hi⟩
  obtain ⟨r, hr, hm⟩ := exists_row i
  exact Bool.false_ne_true ((hw r hr).symm.trans ((rowMatches_iff_decode hr w).2 ⟨i, hi, hm⟩))

end Sys2Proof
end

section
/-! PROOFS. The assembler's operands (R55): what a literal and an operand count give, and the operands that the text of a
command is read as. -/

namespace Sys2Proof.Machine

/-! ## Literals and operand counts -/

theorem byteOperand_of_le {cs : List Char} {n : Nat} (h : literal cs = some n) (hn : n ≤ 255) :
    byteOperand cs = .ok (BitVec.ofNat 8 n) := by
  simp [byteOperand, boundedOperand, h, Nat.lt_succ_of_le hn]

theorem byteOperand_of_gt {cs : List Char} {n : Nat} (h : literal cs = some n) (hn : 255 < n) :
    byteOperand cs = .error .literalOutOfRange := by
  simp [byteOperand, boundedOperand, h, Nat.not_lt.2 hn]

theorem byteOperands_cons {cs : List Char} {rest : List (List Char)} {b : Byte} {bs : List Byte}
    (h : byteOperand cs = .ok b) (hrest : byteOperands rest = .ok bs) : byteOperands (cs :: rest) = .ok (b :: bs) := by
  simp [byteOperands, h, hrest]

section
variable {operands : List (List Char)}

theorem parsePush_of_bytes {b : Byte} (h : byteOperands operands = .ok [b]) :
    parsePush operands = .ok (.instr (.push b)) := by
  simp [parsePush, h]

theorem parseInitcus_of_bytes {p i x : Byte} (h : byteOperands operands = .ok [p, i, x]) :
    parseInitcus operands = .ok (.instr (.initcus p i x)) := by
  simp [parseInitcus, h]

theorem parsePush_of_length_ne {bytes : List Byte} (h : byteOperands operands = .ok bytes) (hn : bytes.length ≠ 1) :
    parsePush operands = .error .wrongOperandCount := by
  unfold parsePush
  split
  case h_1 he => cases h.symm.trans he
  case h_2 hb =>
    obtain rfl := Except.ok.inj (h.symm.trans hb)
    exact absurd rfl hn
  case h_3 => rfl

theorem parseInitcus_of_length_ne {bytes : List Byte} (h : byteOperands operands = .ok bytes) (hn : bytes.length ≠ 3) :
    parseInitcus operands = .error .wrongOperandCount := by
  unfold parseInitcus
  split
  case h_1 he => cases h.symm.trans he
  case h_2 hb =>
    obtain rfl := Except.ok.inj (h.symm.trans hb)
    exact absurd rfl hn
  case h_3 => rfl

end

/-- Settles O58, operand by operand and count by count. -/
theorem assemblerRefusals : Obligations.AssemblerRefusals := by
  unfold Obligations.AssemblerRefusals
  exact ⟨fun _ _ h => ⟨byteOperand_of_le h, byteOperand_of_gt h⟩,
    fun _ _ h => ⟨parsePush_of_length_ne h, parseInitcus_of_length_ne h⟩, fun _ _ hne => if_neg hne⟩

/-! ## The text of a byte -/

theorem digitValue_hexDigit (v : BitVec 4) : digitValue 16 (hexDigit v) = some v.toNat := by
  revert v
  decide

/-- A character of a word or literal: no white space, comma or comment sign. -/
def isPlain (c : Char) : Bool := !isSpace c && c != ',' && c != ';'

section
variable {c : Char} (h : isPlain c = true)
include h

theorem isSpace_eq_false_of_isPlain : isSpace c = false := by
  simp only [isPlain, Bool.and_eq_true, Bool.not_eq_true'] at h
  exact h.1.1

theorem ne_comma_of_isPlain : c ≠ ',' := by
  rintro rfl
  cases h

theorem ne_semicolon_of_isPlain : c ≠ ';' := by
  rintro rfl
  cases h

end

theorem isPlain_hexDigit (v : BitVec 4) : isPlain (hexDigit v) = true := by
  revert v
  decide

theorem isPlain_of_mem_byteText {b : Byte} {c : Char} (h : c ∈ byteText b) : isPlain c = true := by
  simp only [byteText, List.mem_cons, List.not_mem_nil, or_false] at h
  obtain rfl | rfl | rfl | rfl := h
  · decide
  · decide
  · exact isPlain_hexDigit _
  · exact isPlain_hexDigit _

theorem byteText_ne_nil (b : Byte) : byteText b ≠ [] := List.cons_ne_nil _ _

/-- The two digits of a byte's text are its two halves. -/
theorem literal_byteText (b : Byte) : literal (byteText b) = some b.toNat := by
  have hdigits : literal (byteText b) = some (b.toNat / 16 % 16 * 16 + b.toNat % 16) := by
    simp [byteText, literal, numeral, digitsValue, digitValue_hexDigit, Nat.shiftRight_eq_div_pow]
  rw [hdigits]
  congr 1
  omega

theorem byteOperand_byteText (b : Byte) : byteOperand (byteText b) = .ok b := by
  rw [byteOperand_of_le (literal_byteText b) (Nat.le_of_lt_succ b.isLt), BitVec.ofNat_toNat, BitVec.setWidth_eq]

/-! ## Trimming and splitting -/

/-- A text without white space at its ends is kept. -/
theorem trim_eq_self {cs : List Char} (hhead : ∀ c ∈ cs.head?, isSpace c = false)
    (hlast : ∀ c ∈ cs.getLast?, isSpace c = false) : trim cs = cs := by
  have hdrop : ∀ l : List Char, (∀ c ∈ l.head?, isSpace c = false) → l.dropWhile isSpace = l := by
    intro l hl
    cases l with
    | nil => rfl
    | cons c l => simp [hl c rfl]
  rw [trim, hdrop cs hhead, hdrop _ (by simpa using hlast), List.reverse_reverse]

/-- A text with a character that is no white space does not vanish. -/
theorem trim_ne_nil {cs : List Char} {c : Char} (hc : c ∈ cs) (h : isSpace c = false) : trim cs ≠ [] := by
  intro htrim
  have hdrop : ∀ d ∈ cs.dropWhile isSpace, isSpace d = true := by
    simpa only [trim, List.reverse_eq_nil_iff, List.dropWhile_eq_nil_iff, List.mem_reverse] using htrim
  rw [← List.takeWhile_append_dropWhile (p := isSpace) (l := cs)] at hc
  have hspace : isSpace c = true := (List.mem_append.1 hc).elim List.mem_takeWhile_imp (hdrop c)
  exact Bool.false_ne_true (h.symm.trans hspace)

theorem trim_byteText (b : Byte) : trim (byteText b) = byteText b := by
  have hspace : ∀ c ∈ byteText b, isSpace c = false := fun _ hc =>
    isSpace_eq_false_of_isPlain (isPlain_of_mem_byteText hc)
  exact trim_eq_self (fun c hc => hspace c (List.mem_of_mem_head? hc))
    (fun c hc => hspace c (List.mem_of_mem_getLast? hc))

theorem splitCommas_cons_of_ne {c : Char} (hc : c ≠ ',') {cs piece : List Char} {rest : List (List Char)}
    (h : splitCommas cs = piece :: rest) : splitCommas (c :: cs) = (c :: piece) :: rest := by
  simp [splitCommas, hc, h]

theorem splitCommas_append_comma {cs : List Char} (h : ∀ c ∈ cs, c ≠ ',') (rest : List Char) :
    splitCommas (cs ++ ',' :: rest) = cs :: splitCommas rest := by
  induction cs with
  | nil => rfl
  | cons c cs ih =>
    obtain ⟨hc, hcs⟩ := List.forall_mem_cons.1 h
    exact splitCommas_cons_of_ne hc (ih hcs)

theorem splitCommas_eq_singleton {cs : List Char} (h : ∀ c ∈ cs, c ≠ ',') : splitCommas cs = [cs] := by
  induction cs with
  | nil => rfl
  | cons c cs ih =>
    obtain ⟨hc, hcs⟩ := List.forall_mem_cons.1 h
    exact splitCommas_cons_of_ne hc (ih hcs)

/-! ## The text of a command -/

theorem ne_comma_of_mem {b : Byte} : ∀ c ∈ ' ' :: byteText b, c ≠ ',' :=
  List.forall_mem_cons.2 ⟨by decide, fun _ hc => ne_comma_of_isPlain (isPlain_of_mem_byteText hc)⟩

theorem trim_blank_byteText (b : Byte) : trim (' ' :: byteText b) = byteText b :=
  trim_byteText b

theorem operandsOf_byteText (b : Byte) : operandsOf (' ' :: byteText b) = [byteText b] := by
  rw [operandsOf, trim_blank_byteText, if_neg (byteText_ne_nil b), splitCommas_eq_singleton ne_comma_of_mem,
    List.map_singleton, trim_blank_byteText]

theorem operandsOf_byteTexts (p i x : Byte) :
    operandsOf (' ' :: byteText p ++ ',' :: (' ' :: byteText i ++ ',' :: ' ' :: byteText x)) =
      [byteText p, byteText i, byteText x] := by
  have hcomma : ',' ∈ ' ' :: byteText p ++ ',' :: (' ' :: byteText i ++ ',' :: ' ' :: byteText x) :=
    List.mem_append_right _ List.mem_cons_self
  rw [operandsOf, if_neg (trim_ne_nil hcomma (by decide)), splitCommas_append_comma ne_comma_of_mem,
    splitCommas_append_comma ne_comma_of_mem, splitCommas_eq_singleton ne_comma_of_mem]
  simp only [List.map_cons, List.map_nil, trim_blank_byteText]

/-- The text after the mnemonic of a command. -/
def operandTextOf : Instr → List Char
  | .initdef => []
  | .initcus poly init xorout => ' ' :: byteText poly ++ ',' :: (' ' :: byteText init ++ ',' :: ' ' :: byteText xorout)
  | .push b => ' ' :: byteText b
  | .reset => []
  | .get => []

theorem textOf_initcus (p i x : Byte) : textOf (.initcus p i x) =
    "INITCUS".toList ++ (' ' :: byteText p ++ ',' :: (' ' :: byteText i ++ ',' :: ' ' :: byteText x)) := rfl

theorem textOf_push (b : Byte) : textOf (.push b) = "PUSH".toList ++ ' ' :: byteText b := rfl

theorem textOf_eq_append (i : Instr) : textOf i = (mnemonicOf i).toList ++ operandTextOf i := by
  cases i with
  | initdef => rfl
  | initcus p i x => exact textOf_initcus p i x
  | push b => exact textOf_push b
  | reset => rfl
  | get => rfl

/-- A command's mnemonic with its operands is read as the command. -/
theorem parseCommand_mnemonicOf (i : Instr) : parseCommand (mnemonicOf i).toList (operandTextOf i) = .ok (.instr i) := by
  cases i with
  | initdef => decide
  | initcus p i x =>
    have hparse : ∀ text, parseCommand "INITCUS".toList text = parseInitcus (operandsOf text) := fun text => by
      rw [parseCommand, if_neg (by decide), if_pos rfl]
    rw [mnemonicOf, hparse, operandTextOf, operandsOf_byteTexts]
    exact parseInitcus_of_bytes (byteOperands_cons (byteOperand_byteText p) <|
      byteOperands_cons (byteOperand_byteText i) <| byteOperands_cons (byteOperand_byteText x) rfl)
  | push b =>
    have hparse : ∀ text, parseCommand "PUSH".toList text = parsePush (operandsOf text) := fun text => by
      rw [parseCommand, if_neg (by decide), if_neg (by decide), if_pos rfl]
    rw [mnemonicOf, hparse, operandTextOf, operandsOf_byteText]
    exact parsePush_of_bytes (byteOperands_cons (byteOperand_byteText b) rfl)
  | reset => decide
  | get => decide

/-- A mnemonic is a word of upper-case letters. -/
theorem mnemonicOf_toList (i : Instr) :
    (mnemonicOf i).toList ≠ [] ∧ (mnemonicOf i).toList.map upper = (mnemonicOf i).toList ∧
      (mnemonicOf i).toList.all isPlain = true := by
  have hall : ∀ m ∈ ["INITDEF", "INITCUS", "PUSH", "RESET", "GET"],
      m.toList ≠ [] ∧ m.toList.map upper = m.toList ∧ m.toList.all isPlain = true := by decide
  refine hall _ ?_
  cases i <;> simp [mnemonicOf]

theorem isPlain_of_mem_mnemonicOf {i : Instr} {c : Char} (h : c ∈ (mnemonicOf i).toList) : isPlain c = true :=
  List.all_eq_true.1 (mnemonicOf_toList i).2.2 c h

theorem isSpace_eq_false_of_mem_mnemonicOf {i : Instr} {c : Char} (h : c ∈ (mnemonicOf i).toList) : isSpace c = false :=
  isSpace_eq_false_of_isPlain (isPlain_of_mem_mnemonicOf h)

theorem not_isSpace_of_mem_mnemonicOf {i : Instr} : ∀ c ∈ (mnemonicOf i).toList, (!isSpace c) = true := fun _ hc => by
  rw [isSpace_eq_false_of_mem_mnemonicOf hc, Bool.not_false]

theorem isSpace_eq_false_of_mem_getLast?_operandTextOf {i : Instr} {c : Char} (h : c ∈ (operandTextOf i).getLast?) :
    isSpace c = false := by
  have hdigit : ∀ v, isSpace (hexDigit v) = false := fun v => isSpace_eq_false_of_isPlain (isPlain_hexDigit v)
  cases i with
  | initdef => simp [operandTextOf] at h
  | initcus p i x =>
    obtain rfl : hexDigit (x.extractLsb' 0 4) = c := by simpa [operandTextOf, byteText] using h
    exact hdigit _
  | push b =>
    obtain rfl : hexDigit (b.extractLsb' 0 4) = c := by simpa [operandTextOf, byteText] using h
    exact hdigit _
  | reset => simp [operandTextOf] at h
  | get => simp [operandTextOf] at h

theorem ne_semicolon_of_mem_operandTextOf (i : Instr) : ∀ c ∈ operandTextOf i, c ≠ ';' := by
  have hbyte : ∀ b : Byte, ∀ c ∈ byteText b, c ≠ ';' := fun _ _ hc => ne_semicolon_of_isPlain (isPlain_of_mem_byteText hc)
  cases i with
  | initdef => exact List.forall_mem_nil _
  | initcus p i x =>
    simp only [operandTextOf, List.forall_mem_append, List.forall_mem_cons]
    exact ⟨⟨by decide, hbyte p⟩, by decide, ⟨by decide, hbyte i⟩, by decide, by decide, hbyte x⟩
  | push b => exact List.forall_mem_cons.2 ⟨by decide, hbyte b⟩
  | reset => exact List.forall_mem_nil _
  | get => exact List.forall_mem_nil _

theorem bodyOf_textOf (i : Instr) : bodyOf (textOf i) = textOf i := by
  obtain ⟨hne, -, -⟩ := mnemonicOf_toList i
  have hcomment : dropComment (textOf i) = textOf i := by
    have hne_semicolon : ∀ c ∈ textOf i, c ≠ ';' := by
      rw [textOf_eq_append]
      exact List.forall_mem_append.2
        ⟨fun _ hc => ne_semicolon_of_isPlain (isPlain_of_mem_mnemonicOf hc), ne_semicolon_of_mem_operandTextOf i⟩
    exact List.takeWhile_eq_self_iff.2 fun c hc => bne_iff_ne.2 (hne_semicolon c hc)
  rw [bodyOf, hcomment]
  apply trim_eq_self
  · rw [textOf_eq_append, List.head?_append_of_ne_nil _ hne]
    exact fun c hc => isSpace_eq_false_of_mem_mnemonicOf (List.mem_of_mem_head? hc)
  · rw [textOf_eq_append, List.getLast?_append]
    intro c hc
    obtain hc | ⟨-, hc⟩ := Option.or_eq_some_iff.1 hc
    · exact isSpace_eq_false_of_mem_getLast?_operandTextOf hc
    · exact isSpace_eq_false_of_mem_mnemonicOf (List.mem_of_mem_getLast? hc)

theorem mnemonicText_textOf (i : Instr) : mnemonicText (textOf i) = (mnemonicOf i).toList := by
  have hoperands : (operandTextOf i).takeWhile (fun c => !isSpace c) = [] := by cases i <;> rfl
  obtain ⟨-, hupper, -⟩ := mnemonicOf_toList i
  rw [mnemonicText, bodyOf_textOf, textOf_eq_append, List.takeWhile_append_of_pos not_isSpace_of_mem_mnemonicOf,
    hoperands, List.append_nil, hupper]

theorem operandText_textOf (i : Instr) : operandText (textOf i) = operandTextOf i := by
  have hoperands : (operandTextOf i).dropWhile (fun c => !isSpace c) = operandTextOf i := by cases i <;> rfl
  rw [operandText, bodyOf_textOf, textOf_eq_append, List.dropWhile_append_of_pos not_isSpace_of_mem_mnemonicOf,
    hoperands]

theorem parseLine_textOf (i : Instr) : parseLine (textOf i) = .ok (some (.instr i)) := by
  have hne : textOf i ≠ [] := by
    rw [textOf_eq_append]
    exact List.append_ne_nil_of_left_ne_nil (mnemonicOf_toList i).1 _
  rw [parseLine, bodyOf_textOf, if_neg hne, mnemonicText_textOf, operandText_textOf, parseCommand_mnemonicOf]

/-- Settles O57: the text of a command is its mnemonic and its operands, and each is read back. -/
theorem assemblerReadsCommandText : Obligations.AssemblerReadsCommandText := by
  unfold Obligations.AssemblerReadsCommandText
  intro mem i
  rw [assembleLine, parseLine_textOf]
  rfl

end Sys2Proof.Machine
end

section
/-! PROOFS. What a text can present (R55, R56): only a `.word` line names a word of its own, and every other line
presents command words and idle cycles. -/

namespace Sys2Proof

/-- An edge that presents nothing or the word of a command. -/
def Pins.Legal (p : Pins) : Prop := p.rst = false ∧ (p.cmdValid = true → ∃ i, decode p.cmdWord = .command i)

theorem Pins.legal_command (i : Instr) : (Pins.command i).Legal := ⟨rfl, fun _ => ⟨i, decode_encode i⟩⟩

theorem Pins.legal_idle : Pins.idle.Legal := ⟨rfl, nofun⟩

end Sys2Proof

namespace Sys2Proof.Machine

/-! ## Expansions -/

theorem legal_of_mem_batchPins {bytes : List Byte} {p : Pins} (h : p ∈ batchPins bytes) : p.Legal := by
  obtain h | h := List.mem_append.1 h
  · obtain ⟨b, -, rfl⟩ := List.mem_map.1 h
    exact Pins.legal_command (.push b)
  · obtain rfl := List.mem_singleton.1 h
    exact Pins.legal_command .get

/-- A `BATCH` over the host's memory is the `BATCH` of the bytes it reads. -/
theorem batchBuffer_eq_ok {mem : List Host.Cell} {data size : Nat} {ps : List Pins}
    (h : batchBuffer mem data size = .ok ps) : ∃ bytes, ps = batchPins bytes := by
  unfold batchBuffer at h
  split at h
  · cases h
  next bytes hbytes =>
    rw [formBatch, if_pos (readBuffer_length hbytes)] at h
    exact ⟨bytes, (Except.ok.inj h).symm⟩

theorem legal_of_expandLine {mem : List Host.Cell} {line : HostLine} {ps : List Pins} (hword : ∀ w, line ≠ .word w)
    (h : expandLine mem line = .ok ps) : ∀ p ∈ ps, p.Legal := by
  intro p hp
  cases line with
  | instr i =>
    cases h
    obtain rfl := List.mem_singleton.1 hp
    exact Pins.legal_command i
  | word w => exact absurd rfl (hword w)
  | batchList bytes =>
    cases h
    exact legal_of_mem_batchPins hp
  | batchBuffer data size =>
    obtain ⟨bytes, rfl⟩ := batchBuffer_eq_ok h
    exact legal_of_mem_batchPins hp
  | idle n =>
    cases h
    obtain rfl := List.eq_of_mem_replicate hp
    exact Pins.legal_idle

/-! ## The lines a mnemonic stands for -/

section
variable {operands : List (List Char)} {line : HostLine}

theorem parseBare_eq_ok {i : Instr} (h : parseBare i operands = .ok line) : line = .instr i := by
  unfold parseBare at h
  split at h
  · exact (Except.ok.inj h).symm
  · cases h

theorem parseInitcus_eq_ok (h : parseInitcus operands = .ok line) : ∃ p i x, line = .instr (.initcus p i x) := by
  unfold parseInitcus at h
  split at h
  · cases h
  · exact ⟨_, _, _, (Except.ok.inj h).symm⟩
  · cases h

theorem parsePush_eq_ok (h : parsePush operands = .ok line) : ∃ b, line = .instr (.push b) := by
  unfold parsePush at h
  split at h
  · cases h
  · exact ⟨_, (Except.ok.inj h).symm⟩
  · cases h

theorem parseIdle_eq_ok (h : parseIdle operands = .ok line) : ∃ n, line = .idle n := by
  unfold parseIdle at h
  split at h
  · split at h
    · cases h
    · exact ⟨_, (Except.ok.inj h).symm⟩
  · cases h

theorem parseBuffer_eq_ok (h : parseBuffer operands = .ok line) : ∃ data size, line = .batchBuffer data size := by
  unfold parseBuffer at h
  split at h
  · split at h
    · exact ⟨_, _, (Except.ok.inj h).symm⟩
    · cases h
    · cases h
  · cases h

theorem parseBatch_eq_ok {text : List Char} (h : parseBatch text = .ok line) :
    (∃ bytes, line = .batchList bytes) ∨ ∃ data size, line = .batchBuffer data size := by
  unfold parseBatch at h
  split at h
  · split at h
    · split at h
      · cases h
      · exact .inl ⟨_, (Except.ok.inj h).symm⟩
    · cases h
  · exact .inr (parseBuffer_eq_ok h)

/-- Only the mnemonic `.WORD` gives a raw word. -/
theorem parseCommand_ne_word {mnemonic text : List Char} (hm : mnemonic ≠ ".WORD".toList)
    (h : parseCommand mnemonic text = .ok line) (w : Word) : line ≠ .word w := by
  rintro rfl
  unfold parseCommand at h
  split at h
  · cases parseBare_eq_ok h
  split at h
  · obtain ⟨_, _, _, h⟩ := parseInitcus_eq_ok h
    cases h
  split at h
  · obtain ⟨_, h⟩ := parsePush_eq_ok h
    cases h
  split at h
  · cases parseBare_eq_ok h
  split at h
  · cases parseBare_eq_ok h
  split at h
  · obtain ⟨_, h⟩ | ⟨_, _, h⟩ := parseBatch_eq_ok h
    · cases h
    · cases h
  split at h
  · obtain ⟨_, h⟩ := parseIdle_eq_ok h
    cases h
  · cases h

end

/-! ## Lines and programs -/

theorem parseLine_eq_some {cs : List Char} {line : HostLine} (h : parseLine cs = .ok (some line)) :
    parseCommand (mnemonicText cs) (operandText cs) = .ok line := by
  unfold parseLine at h
  split at h
  · cases h
  · split at h
    · cases h
    next hparse =>
      cases h
      exact hparse

/-- A line that assembles presents nothing, or the expansion of what its mnemonic and operands are read as. -/
theorem assembleLine_eq_ok {mem : List Host.Cell} {cs : List Char} {ps : List Pins} (h : assembleLine mem cs = .ok ps) :
    ps = [] ∨ ∃ line, parseCommand (mnemonicText cs) (operandText cs) = .ok line ∧ expandLine mem line = .ok ps := by
  unfold assembleLine at h
  split at h
  · cases h
  · exact .inl (Except.ok.inj h).symm
  next line hline =>
    split at h
    · cases h
    next hexpand =>
      cases h
      exact .inr ⟨line, parseLine_eq_some hline, hexpand⟩

theorem assembleLines_cons_eq_ok {mem : List Host.Cell} {cs : List Char} {rest : List (List Char)} {ps : List Pins}
    (h : assembleLines mem (cs :: rest) = .ok ps) :
    ∃ qs rs, assembleLine mem cs = .ok qs ∧ assembleLines mem rest = .ok rs ∧ ps = qs ++ rs := by
  unfold assembleLines at h
  split at h
  · cases h
  · split at h
    · cases h
    · exact ⟨_, _, ‹_›, ‹_›, (Except.ok.inj h).symm⟩

theorem legal_of_assembleLine {mem : List Host.Cell} {cs : List Char} {ps : List Pins}
    (hm : mnemonicText cs ≠ ".WORD".toList) (h : assembleLine mem cs = .ok ps) : ∀ p ∈ ps, p.Legal := by
  obtain rfl | ⟨line, hparse, hexpand⟩ := assembleLine_eq_ok h
  · exact List.forall_mem_nil _
  · exact legal_of_expandLine (parseCommand_ne_word hm hparse) hexpand

theorem legal_of_assembleLines {mem : List Host.Cell} {lines : List (List Char)} {ps : List Pins}
    (hm : ∀ cs ∈ lines, mnemonicText cs ≠ ".WORD".toList) (h : assembleLines mem lines = .ok ps) :
    ∀ p ∈ ps, p.Legal := by
  induction lines generalizing ps with
  | nil =>
    cases h
    exact List.forall_mem_nil _
  | cons cs rest ih =>
    obtain ⟨qs, rs, hline, hrest, rfl⟩ := assembleLines_cons_eq_ok h
    obtain ⟨hcs, hms⟩ := List.forall_mem_cons.1 hm
    exact List.forall_mem_append.2 ⟨legal_of_assembleLine hcs hline, ih hms hrest⟩

/-- Settles O59, line by line: what a line presents is legal unless it is a raw word. -/
theorem textPresentsOnlyLegalWords : Obligations.TextPresentsOnlyLegalWords := by
  unfold Obligations.TextPresentsOnlyLegalWords
  exact ⟨fun _ _ _ hm h => legal_of_assembleLine hm h, fun _ _ _ hm h => legal_of_assembleLines hm h⟩

end Sys2Proof.Machine
end

section
/-! PROOFS. The initialisers (spec/40_initialize.md R59 to R61): what each leaves, a first byte after polynomial 0, and the
configuration over a run without another initialiser. -/

namespace Sys2Proof.Machine

/-! ## An initialiser alone -/

/-- An initialiser answers in every phase, with `result` of its effect as the response (R24, R27). -/
theorem exec_initialiser {i : Instr} (hi : isInitialiser (.command i) = true) (s : State) :
    exec i s = .next (respond (result (effect i s)) false (effect i s)) := by
  obtain ⟨u, hu⟩ := exec_of_isInitialiser hi
  rw [hu s, ← exec_eq_next (hu s)]

/-- An initialiser leaves its initial value in the accumulator (R19). -/
theorem effect_acc_of_initialiser {i : Instr} (hi : isInitialiser (.command i) = true) (s : State) :
    (effect i s).acc = (effect i s).init := by
  cases i with
  | initdef => rfl
  | initcus poly init xorout => rfl
  | push b => cases hi
  | reset => cases hi
  | get => cases hi

/-- Settles O21: `INITDEF` leaves the state of a hardware reset but for its response, and adds nothing to its own effect. -/
theorem initdefRule : Obligations.InitdefRule := by
  unfold Obligations.InitdefRule
  refine ⟨rfl, decode_encode .initdef, exec_initdef, fun s t => exec_again rfl, fun s t h => ?_⟩
  obtain rfl := Host.Outcome.next.inj ((exec_initdef s).symm.trans h)
  exact ⟨rfl, rfl⟩

/-! ## Bytes after an initialiser -/

theorem pushPins_cons (b : Byte) (bs : List Byte) : pushPins (b :: bs) = Pins.command (.push b) :: pushPins bs := rfl

/-- A non-empty run of `PUSH`es leaves the fold over its bytes in the accumulator and answers it XOR `xorout` (R65, R73). -/
theorem edges_pushPins_cons (b : Byte) (bs : List Byte) {s : State} (hs : s.phase = .ready) :
    edges (pushPins (b :: bs)) s =
      .next (respond (crc8Fold s.poly s.acc (b :: bs) ^^^ s.xorout) false
        (setAcc (crc8Fold s.poly s.acc (b :: bs)) s)) := by
  induction bs generalizing b s with
  | nil =>
    rw [pushPins_cons, edges_cons, edge_command, exec_of_ready hs]
    rfl
  | cons c bs ih =>
    rw [pushPins_cons, edges_cons, edge_command, exec_of_ready hs]
    exact ih c (effect_phase_of_ready hs)

@[simp] theorem stage_zero_poly (x : Byte) : stage 0x00#8 x = shl1 x := by
  simp [stage_eq]

/-- With polynomial 0 the eight stages shift every bit out (R66). -/
theorem crc8Step_zero_poly (a b : Byte) : crc8Step 0x00#8 a b = 0x00#8 := by
  simp only [crc8Step, stage_zero_poly, shl1, ← BitVec.shiftLeft_add]
  exact BitVec.shiftLeft_eq_zero (by decide)

/-- With polynomial 0 the last byte's step leaves 0, whatever came before it. -/
theorem crc8Fold_zero_poly (a : Byte) {bs : List Byte} (hbs : bs ≠ []) : crc8Fold 0x00#8 a bs = 0x00#8 := by
  rw [← List.dropLast_concat_getLast hbs, crc8Fold, List.foldl_concat, crc8Step_zero_poly]

/-! ## The statement about `INITCUS` -/

/-- The operands of an `INITCUS` word are its fields (R47). -/
theorem operands_of_decode_initcus {w : Word} {p i x : Byte} (h : decode w = .command (.initcus p i x)) :
    fieldA w = p ∧ fieldB w = i ∧ fieldC w = x := by
  have hfields := decode_eq_command_iff_fields.1 h
  exact ⟨congrArg CW.A hfields, congrArg CW.B hfields, congrArg CW.C hfields⟩

theorem exec_initcus (p i x : Byte) (s : State) :
    exec (.initcus p i x) s = .next (respond (i ^^^ x) false (configure p i x s)) := rfl

/-- Settles O22: the effect is `configure`, which depends on the operands alone; after it, with polynomial 0, every fold over
some bytes is 0. -/
theorem initcusRule : Obligations.InitcusRule := by
  unfold Obligations.InitcusRule
  refine ⟨fun w hw => ?_, exec_initcus, fun p i x s t => exec_again rfl, fun i x s bytes hbytes => ?_,
    fun p i s => ⟨_, exec_initcus p i i s, BitVec.xor_self⟩, fun s => rfl, by decide⟩
  · obtain ⟨p, i, x, hd⟩ := (and_eq_initcus_iff w).1 hw
    obtain ⟨rfl, rfl, rfl⟩ := operands_of_decode_initcus hd
    exact hd
  · obtain ⟨b, bs, rfl⟩ := List.exists_cons_of_ne_nil hbytes
    rw [edges_cons, edge_command, exec_initcus]
    exact ⟨_, edges_pushPins_cons b bs rfl, crc8Fold_zero_poly i hbytes⟩

/-! ## The configuration over a run -/

/-- In READY every edge answers a next state (R95). -/
theorem exists_edge_next_of_ready (p : Pins) {s : State} (hs : s.phase = .ready) : ∃ t, edge p s = .next t := by
  cases hr : p.rst with
  | true => exact ⟨_, edge_of_rst hr⟩
  | false =>
    cases hv : p.cmdValid with
    | false => exact ⟨_, edge_of_idle hr hv⟩
    | true =>
      cases hd : decode p.cmdWord with
      | command i => exact ⟨_, (edge_of_command hr hv hd).trans (exec_of_ready hs)⟩
      | illegal why => exact ⟨_, (edge_of_illegal hr hv hd).trans (whenReady_of_ready hs)⟩

/-- The edges of two lists are those of the second from where the first ends; a fault of the first is kept (R80). -/
theorem edges_append (ps qs : List Pins) (s : State) : edges (ps ++ qs) s = andThen (edges ps s) (edges qs) := by
  induction ps generalizing s with
  | nil => rfl
  | cons p ps ih =>
    rw [List.cons_append, edges_cons, edges_cons]
    cases edge p s with
    | next t => exact ih t
    | fault f => rfl
    | refused r => rfl

/-- In READY a run without an edge that initialises ends, in READY and with the configuration it began with (R23). -/
theorem edges_keeps_configuration {ps : List Pins} (hps : ∀ p ∈ ps, p.initialises = false) {s : State}
    (hs : s.phase = .ready) :
    ∃ t, edges ps s = .next t ∧ t.phase = .ready ∧ t.poly = s.poly ∧ t.init = s.init ∧ t.xorout = s.xorout := by
  induction ps generalizing s with
  | nil => exact ⟨s, rfl, hs, rfl, rfl, rfl⟩
  | cons p ps ih =>
    obtain ⟨hp, hrest⟩ := List.forall_mem_cons.1 hps
    obtain ⟨t, ht⟩ := exists_edge_next_of_ready p hs
    obtain ⟨hpoly, hinit, hxorout⟩ := edge_keeps_configuration ht hp
    rw [edges_cons, ht, ← hpoly, ← hinit, ← hxorout]
    exact ih hrest (edge_keeps_ready ht hs)

/-- A `RESET` after a run without an edge that initialises leaves the registers of the state before the run, with its initial
value in the accumulator (R61, R70). -/
theorem registers_edges_append_reset {ps : List Pins} (hps : ∀ p ∈ ps, p.initialises = false) {s : State}
    (hs : s.phase = .ready) :
    ∃ u, edges (ps ++ [Pins.command .reset]) s = .next u ∧ registers u = { registers s with acc := s.init } := by
  obtain ⟨t, hedges, ht, hpoly, hinit, hxorout⟩ := edges_keeps_configuration hps hs
  have hreset : edges (ps ++ [Pins.command .reset]) s = exec .reset t := by
    rw [edges_append, hedges, edges_singleton, edge_command, andThen]
  rw [hreset, exec_of_ready ht]
  exact ⟨_, rfl, by simp [registers, effect, hpoly, hinit, hxorout]⟩

/-- Settles O34: the words after the initialiser keep its configuration, and the `RESET` puts back its accumulator, which is
its initial value. -/
theorem configurationReuse : Obligations.ConfigurationReuse := by
  unfold Obligations.ConfigurationReuse
  intro i ws s hi hws
  have hexec := exec_initialiser hi s
  have hpins : ∀ p ∈ ws.map Pins.word, p.initialises = false :=
    List.forall_mem_map.2 fun w hw => by simpa [Pins.initialises, Pins.word] using hws w hw
  obtain ⟨u, hedges, hregs⟩ := registers_edges_append_reset hpins (phase_of_exec_eq_next hexec)
  refine ⟨_, u, hexec, ?_, ?_⟩
  · rw [edges_cons, edge_command, hexec]
    exact hedges
  · rw [hregs, respond_init, ← effect_acc_of_initialiser hi s]
    rfl

end Sys2Proof.Machine
end

section
/-! PROOFS. The byte step (R62 to R64, R68 items 1 to 4): a stage is linear over GF(2), so that the eight stages of a byte
step are, and what they do follows from the bits of one stage. -/

namespace Sys2Proof.Machine

/-! ## One stage -/

theorem getLsbD_shl1_zero (x : Byte) : (shl1 x).getLsbD 0 = false := by
  rw [shl1, BitVec.getLsbD_shiftLeft]
  rfl

/-- Each bit but the top one moves up (R10). -/
theorem getLsbD_shl1_succ (x : Byte) {i : Nat} (hi : i < 7) : (shl1 x).getLsbD (i + 1) = x.getLsbD i := by
  have hlt : i + 1 < 8 := Nat.succ_lt_succ hi
  rw [shl1, BitVec.getLsbD_shiftLeft]
  simp [hlt, -BitVec.getLsbD_eq_getElem]

theorem toNat_shl1 (x : Byte) : (shl1 x).toNat = 2 * x.toNat % 256 := by
  rw [shl1, BitVec.toNat_shiftLeft, Nat.shiftLeft_eq, pow_one, mul_comm]

theorem stage_of_msb {p x : Byte} (h : x.getLsbD 7 = true) : stage p x = shl1 x ^^^ p := if_pos h

theorem stage_of_not_msb {p x : Byte} (h : x.getLsbD 7 = false) : stage p x = shl1 x := if_neg (Bool.not_eq_true _ ▸ h)

/-- Settles O35, by the two branches of a stage. -/
theorem stageRule : Obligations.StageRule := by
  unfold Obligations.StageRule
  exact fun p x => ⟨stage_of_msb, stage_of_not_msb, toNat_shl1 x⟩

/-- Bit 0 of a stage's output is that of the polynomial where it was XORed in: the shift leaves 0 there. -/
theorem getLsbD_stage_zero (p x : Byte) : (stage p x).getLsbD 0 = (x.getLsbD 7 && p.getLsbD 0) := by
  cases h : x.getLsbD 7 with
  | true => rw [stage_of_msb h, BitVec.getLsbD_xor, getLsbD_shl1_zero, Bool.false_xor, Bool.true_and]
  | false => rw [stage_of_not_msb h, getLsbD_shl1_zero, Bool.false_and]

/-- A stage is linear over GF(2) (R64): the shift is, and the polynomial is XORed in for each top bit that is set. -/
theorem stage_xor (p x y : Byte) : stage p (x ^^^ y) = stage p x ^^^ stage p y := by
  have hshl : shl1 (x ^^^ y) = shl1 x ^^^ shl1 y := BitVec.shiftLeft_xor_distrib x y 1
  have hpoly : ∀ c d : Bool, (if c ^^ d then p else 0#8) = (if c then p else 0#8) ^^^ (if d then p else 0#8) := by
    rintro (_ | _) (_ | _)
    all_goals simp
  rw [stage_eq, stage_eq, stage_eq, hshl, BitVec.getLsbD_xor, hpoly]
  ac_rfl

/-! ## Eight stages -/

/-- A byte step is eight stages of `acc XOR b` (R63). -/
theorem crc8Step_eq_byteFn (p a b : Byte) : crc8Step p a b = byteFn p (a ^^^ b) := rfl

/-- Settles O36: `byteFn` is the eight stages. -/
theorem byteStepIsEightStages : Obligations.ByteStepIsEightStages := by
  unfold Obligations.ByteStepIsEightStages
  exact crc8Step_eq_byteFn

theorem iterate_stage_xor (p : Byte) (n : Nat) (x y : Byte) :
    (stage p)^[n] (x ^^^ y) = (stage p)^[n] x ^^^ (stage p)^[n] y := by
  induction n with
  | zero => rfl
  | succ n ih => simp only [Function.iterate_succ_apply', ih, stage_xor]

theorem byteFn_xor (p u v : Byte) : byteFn p (u ^^^ v) = byteFn p u ^^^ byteFn p v := iterate_stage_xor p 8 u v

@[simp] theorem byteFn_zero (p : Byte) : byteFn p 0x00#8 = 0x00#8 := by
  simpa using byteFn_xor p 0x00#8 0x00#8

/-- From 1, seven stages only shift, and the eighth XORs the polynomial into zero (R68 item 3). -/
theorem byteFn_one (p : Byte) : byteFn p 0x01#8 = p := by
  have hshifts : (stage p)^[7] 0x01#8 = 0x80#8 := by simp [stage, shl1]
  have hlast : stage p 0x80#8 = p := (stage_of_msb rfl).trans BitVec.zero_xor
  rw [byteFn, Function.iterate_succ_apply', hshifts, hlast]

/-- Settles O39, from the linearity of the eight stages. -/
theorem byteStepIsLinear : Obligations.ByteStepIsLinear := by
  unfold Obligations.ByteStepIsLinear
  exact ⟨crc8Step_eq_byteFn, byteFn_xor, byteFn_zero, fun p a b => byteFn_xor p a b, byteFn_one⟩

/-! ## The linear form -/

theorem column_eq_byteFn (p : Byte) (j : Nat) : column p j = byteFn p (1#8 <<< j) :=
  congrArg (byteFn p) BitVec.zero_xor

/-- The XOR of the single bits below `n` that are set in `v`. -/
def xorOfBits (v : Byte) (n : Nat) : Byte :=
  (List.range n).foldl (fun r j => if v.getLsbD j then r ^^^ (1#8 <<< j) else r) 0x00#8

theorem xorOfBits_succ (v : Byte) (n : Nat) :
    xorOfBits v (n + 1) = if v.getLsbD n then xorOfBits v n ^^^ (1#8 <<< n) else xorOfBits v n := by
  rw [xorOfBits, List.range_succ, List.foldl_concat]
  rfl

theorem getLsbD_xorOfBits (v : Byte) (n i : Nat) :
    (xorOfBits v n).getLsbD i = (decide (i < n) && v.getLsbD i) := by
  induction n with
  | zero => simp [xorOfBits]
  | succ n ih =>
    have hbit : (1#8 <<< n).getLsbD i = (decide (n < 8) && decide (n = i)) := by
      rw [← BitVec.twoPow_eq, BitVec.getLsbD_twoPow]
    cases hv : v.getLsbD n with
    | true =>
      have hn : n < 8 := BitVec.lt_of_getLsbD hv
      rw [xorOfBits_succ, if_pos hv, BitVec.getLsbD_xor, ih, hbit]
      grind
    | false =>
      rw [xorOfBits_succ, if_neg (by simp [hv]), ih]
      grind

/-- A byte is the XOR of its single bits. -/
theorem xorOfBits_eight (v : Byte) : xorOfBits v 8 = v := by
  ext i hi
  simp [← BitVec.getLsbD_eq_getElem, getLsbD_xorOfBits, hi]

/-- The byte function goes through the XOR of single bits, and takes each to its column (R64). -/
theorem crc8Linear_eq_crc8Step (p a b : Byte) : crc8Linear p a b = crc8Step p a b := by
  have hbit : ∀ (r : Byte) (j : Nat),
      (if (a ^^^ b).getLsbD j then byteFn p r ^^^ column p j else byteFn p r) =
        byteFn p (if (a ^^^ b).getLsbD j then r ^^^ (1#8 <<< j) else r) := by
    intro r j
    rw [apply_ite (byteFn p), byteFn_xor, column_eq_byteFn]
  calc crc8Linear p a b
    _ = (List.range 8).foldl (fun r j => if (a ^^^ b).getLsbD j then r ^^^ column p j else r)
          (byteFn p 0x00#8) := by
      rw [byteFn_zero]
      rfl
    _ = byteFn p (xorOfBits (a ^^^ b) 8) := List.foldl_hom (byteFn p) hbit
    _ = crc8Step p a b := by rw [xorOfBits_eight, crc8Step_eq_byteFn]

/-- Settles O37: the linear form is the linearity of the byte function, and the two lists of columns are computed. -/
theorem linearFormIsByteStep : Obligations.LinearFormIsByteStep := by
  unfold Obligations.LinearFormIsByteStep
  exact ⟨crc8Linear_eq_crc8Step, stage_xor, by decide, by decide⟩

/-! ## When the byte function is a bijection -/

/-- With bit 0 of the polynomial set, bit 0 of a stage's output tells the top bit that went out, so that nothing is lost. -/
theorem stage_injective {p : Byte} (hp : p.getLsbD 0 = true) : Function.Injective (stage p) := by
  intro x y h
  have htop : x.getLsbD 7 = y.getLsbD 7 := by
    simpa only [getLsbD_stage_zero, hp, Bool.and_true] using congrArg (·.getLsbD 0) h
  have hshl : shl1 x = shl1 y := by
    rwa [stage_eq, stage_eq, htop, BitVec.xor_left_inj] at h
  apply BitVec.eq_of_getLsbD_eq
  intro i hi
  obtain hi | rfl := Nat.lt_succ_iff_lt_or_eq.1 hi
  · rw [← getLsbD_shl1_succ x hi, hshl, getLsbD_shl1_succ y hi]
  · exact htop

/-- With bit 0 of the polynomial clear, no byte is taken to 1. -/
theorem byteFn_ne_one {p : Byte} (hp : p.getLsbD 0 = false) (v : Byte) : byteFn p v ≠ 0x01#8 := by
  intro h
  have hbit : (byteFn p v).getLsbD 0 = false := by
    rw [byteFn, Function.iterate_succ_apply', getLsbD_stage_zero, hp, Bool.and_false]
  rw [h] at hbit
  cases hbit

/-- Settles O40: each stage is injective where bit 0 of the polynomial is set, and 1 is no value where it is clear. -/
theorem byteStepBijectiveIffOddPolynomial : Obligations.ByteStepBijectiveIffOddPolynomial := by
  unfold Obligations.ByteStepBijectiveIffOddPolynomial
  refine ⟨fun p => ⟨fun h => ?_, fun hp => ?_⟩, fun p v hp => ?_⟩
  · by_contra hp
    obtain ⟨v, hv⟩ := h.surjective 0x01#8
    exact byteFn_ne_one (Bool.not_eq_true _ ▸ hp) v hv
  · exact Finite.injective_iff_bijective.1 ((stage_injective hp).iterate 8)
  · rw [getLsbD_stage_zero, hp, Bool.and_false]

end Sys2Proof.Machine
end

section
/-! PROOFS. `PUSH` and runs of `PUSH`es (R65, R66, R69, R74): the accumulator is the fold of the byte step, and each
response is the result of the bytes so far. -/

namespace Sys2Proof.Machine

/-! ## One `PUSH` -/

/-- The operand of a `PUSH` word is its field `A` (R47). -/
theorem operand_of_decode_push {w : Word} {b : Byte} (h : decode w = .command (.push b)) : fieldA w = b :=
  congrArg CW.A (decode_eq_command_iff_fields.1 h)

/-- Settles O23: the effect of `PUSH`, and the corner cases as values of the byte function at `acc XOR b`. -/
theorem pushRule : Obligations.PushRule := by
  unfold Obligations.PushRule
  refine ⟨fun w hw => ?_, fun b s hs => exec_of_uninit rfl hs, fun b s hs => exec_of_ready hs, fun p a => ?_,
    fun p a => ?_, by decide, crc8Step_zero_poly, fun p a b h => ?_, by decide, fun p a b h => ?_, fun b s o hs => ?_,
    by decide, by decide, by decide⟩
  · obtain ⟨b, hd⟩ := (and_eq_push_iff w).1 hw
    obtain rfl := operand_of_decode_push hd
    exact hd
  · rw [crc8Step_eq_byteFn, BitVec.xor_self, byteFn_zero]
  · rw [crc8Step_eq_byteFn, BitVec.xor_zero, byteFn]
  · rw [crc8Step_eq_byteFn, h, column_eq_byteFn]
    rfl
  · rw [crc8Step_eq_byteFn, h, column_eq_byteFn]
    exact ⟨byteFn_one p, byteFn_one p⟩
  · rw [sample_of_ready hs]
    rfl

/-! ## Runs -/

/-- In READY a run of `PUSH`es ends, in READY and with the fold over its bytes in the accumulator (R69). -/
theorem exists_edges_pushPins (bytes : List Byte) {s : State} (hs : s.phase = .ready) :
    ∃ t, edges (pushPins bytes) s = .next t ∧ t.acc = crc8Fold s.poly s.acc bytes := by
  cases bytes with
  | nil => exact ⟨s, rfl, rfl⟩
  | cons b bs => exact ⟨_, edges_pushPins_cons b bs hs, rfl⟩

/-- The non-empty beginnings of a list: its first element alone, and that element before each of the rest's. -/
theorem tail_inits_cons {α : Type} (x : α) (xs : List α) :
    (x :: xs).inits.tail = [x] :: xs.inits.tail.map (x :: ·) := by
  cases xs <;> simp

/-- Each `PUSH` of a run answers the result of the bytes so far (R65, R69). -/
theorem responses_pushPins (bytes : List Byte) {s : State} (hs : s.phase = .ready) :
    responses (pushPins bytes) s =
      bytes.inits.tail.map fun sofar => ⟨crc8Fold s.poly s.acc sofar ^^^ s.xorout, false⟩ := by
  induction bytes generalizing s with
  | nil => rfl
  | cons b bs ih =>
    have hphase : (respond (result (effect (.push b) s)) false (effect (.push b) s)).phase = .ready :=
      effect_phase_of_ready hs
    rw [pushPins_cons, responses_command_cons hs, ih hphase, tail_inits_cons, List.map_cons, List.map_map]
    rfl

/-- Settles O42: the `BATCH` is the `GET` after the run of `PUSH`es. -/
theorem pushBatchEquivalence : Obligations.PushBatchEquivalence := by
  unfold Obligations.PushBatchEquivalence
  intro s bytes hs
  obtain ⟨t, hpushes, hacc⟩ := exists_edges_pushPins bytes hs
  have hbatch := edges_batchPins bytes hs
  have hget : edges (batchPins bytes) s = exec .get t := by
    rw [batchPins, edges_append, hpushes, edges_singleton, edge_command, andThen]
  exact ⟨t, _, hpushes, hbatch, hget.symm.trans hbatch, hacc, rfl, rfl, responses_pushPins bytes hs⟩

theorem ne_nil_of_mem_tail_inits {α : Type} {xs ys : List α} (h : ys ∈ xs.inits.tail) : ys ≠ [] := by
  cases xs with
  | nil => cases h
  | cons x xs =>
    rintro rfl
    simp at h

/-- With polynomial 0 every response is `xorout` (R66). -/
theorem responses_pushPins_zero_poly (bytes : List Byte) {s : State} (hs : s.phase = .ready) (hp : s.poly = 0x00#8) :
    responses (pushPins bytes) s = List.replicate bytes.length ⟨s.xorout, false⟩ := by
  rw [responses_pushPins bytes hs, hp, List.eq_replicate_iff, List.length_map, List.length_tail, List.length_inits]
  refine ⟨rfl, List.forall_mem_map.2 fun sofar hsofar => ?_⟩
  rw [crc8Fold_zero_poly s.acc (ne_nil_of_mem_tail_inits hsofar), BitVec.zero_xor]

/-- Settles O38, from the byte step and the fold with polynomial 0. -/
theorem degeneratePolynomial : Obligations.DegeneratePolynomial := by
  unfold Obligations.DegeneratePolynomial
  refine ⟨stage_zero_poly, crc8Step_zero_poly, fun s bytes hs hp hbytes => ?_⟩
  obtain ⟨t, hpushes, hacc⟩ := exists_edges_pushPins bytes hs
  rw [hp, crc8Fold_zero_poly s.acc hbytes] at hacc
  exact ⟨t, hpushes, hacc, responses_pushPins_zero_poly bytes hs hp⟩

end Sys2Proof.Machine
end

section
/-! PROOFS. The accumulator as a polynomial remainder (R68 item 5, log 21). A stage multiplies by `x` in the quotient by
`G(x)`, and a byte's polynomial is of lower degree than `G(x)`, so that it is the remainder of what it equals there. -/

namespace Sys2Proof.Machine

open Polynomial

/-! ## The polynomial of a byte -/

@[simp] theorem bytePoly_zero : bytePoly 0x00#8 = 0 := by
  simp [bytePoly]

/-- XOR of bytes is addition over GF(2). -/
theorem bytePoly_xor (u v : Byte) : bytePoly (u ^^^ v) = bytePoly u + bytePoly v := by
  rw [bytePoly, bytePoly, bytePoly, ← Finset.sum_add_distrib]
  refine Finset.sum_congr rfl fun i _ => ?_
  have hcancel : (X : (ZMod 2)[X]) ^ i + X ^ i = 0 := CharTwo.add_self_eq_zero _
  rw [BitVec.getLsbD_xor]
  cases u.getLsbD i <;> cases v.getLsbD i <;> simp [hcancel]

theorem degree_bytePoly_lt (v : Byte) : (bytePoly v).degree < (8 : ℕ) := by
  rw [bytePoly, ← mem_degreeLT]
  refine Submodule.sum_mem _ fun i hi => ?_
  split
  · rw [mem_degreeLT, degree_X_pow]
    exact_mod_cast Finset.mem_range.1 hi
  · exact Submodule.zero_mem _

theorem generatorPoly_monic (p : Byte) : (generatorPoly p).Monic := monic_X_pow_add (degree_bytePoly_lt p)

theorem degree_generatorPoly (p : Byte) : (generatorPoly p).degree = (8 : ℕ) := by
  rw [generatorPoly, degree_add_eq_left_of_degree_lt, degree_X_pow]
  rw [degree_X_pow]
  exact degree_bytePoly_lt p

/-- The shift multiplies by `x`, and drops the `x^8` of a top bit (R10). -/
theorem X_mul_bytePoly_eq_shl1 (v : Byte) :
    X * bytePoly v = bytePoly (shl1 v) + if v.getLsbD 7 then X ^ 8 else 0 := by
  have hlow : bytePoly (shl1 v) = ∑ i ∈ Finset.range 7, if v.getLsbD i then X ^ (i + 1) else 0 := by
    rw [bytePoly, Finset.sum_range_succ', getLsbD_shl1_zero, if_neg Bool.false_ne_true, add_zero]
    exact Finset.sum_congr rfl fun i hi => by rw [getLsbD_shl1_succ v (Finset.mem_range.1 hi)]
  rw [hlow, bytePoly, Finset.mul_sum, Finset.sum_range_succ]
  simp only [mul_ite, mul_zero, ← pow_succ']

/-- A stage multiplies by `x`, and takes `G(x)` away where the top bit was set (R62). -/
theorem X_mul_bytePoly (p v : Byte) :
    X * bytePoly v = bytePoly (stage p v) + if v.getLsbD 7 then generatorPoly p else 0 := by
  rw [X_mul_bytePoly_eq_shl1]
  cases h : v.getLsbD 7 with
  | true =>
    have hcancel : bytePoly p + bytePoly p = 0 := CharTwo.add_self_eq_zero _
    simp only [if_true, stage_of_msb h, bytePoly_xor, generatorPoly]
    linear_combination -hcancel
  | false => simp [stage_of_not_msb h]

/-! ## Modulo the generator polynomial -/

/-- A byte's polynomial is the remainder of every polynomial it equals modulo `G(x)`. -/
theorem bytePoly_eq_modByMonic {p v : Byte} {f : (ZMod 2)[X]}
    (h : AdjoinRoot.mk (generatorPoly p) (bytePoly v) = AdjoinRoot.mk (generatorPoly p) f) :
    bytePoly v = f %ₘ generatorPoly p := by
  have hG := generatorPoly_monic p
  have hself : bytePoly v %ₘ generatorPoly p = bytePoly v :=
    (modByMonic_eq_self_iff hG).2 ((degree_bytePoly_lt v).trans_eq (degree_generatorPoly p).symm)
  rw [← hself, ← AdjoinRoot.modByMonicHom_mk hG, h, AdjoinRoot.modByMonicHom_mk]

theorem mk_bytePoly_stage (p v : Byte) :
    AdjoinRoot.mk (generatorPoly p) (bytePoly (stage p v)) = AdjoinRoot.mk (generatorPoly p) (X * bytePoly v) := by
  rw [X_mul_bytePoly p v, map_add]
  split <;> simp

theorem mk_bytePoly_iterate_stage (p v : Byte) (n : ℕ) :
    AdjoinRoot.mk (generatorPoly p) (bytePoly ((stage p)^[n] v)) =
      AdjoinRoot.mk (generatorPoly p) (X ^ n * bytePoly v) := by
  induction n with
  | zero => simp
  | succ n ih =>
    rw [Function.iterate_succ_apply', mk_bytePoly_stage, map_mul, ih, ← map_mul, ← mul_assoc, ← pow_succ']

theorem mk_bytePoly_byteFn (p v : Byte) :
    AdjoinRoot.mk (generatorPoly p) (bytePoly (byteFn p v)) = AdjoinRoot.mk (generatorPoly p) (X ^ 8 * bytePoly v) :=
  mk_bytePoly_iterate_stage p v 8

/-- The fold from `a`, modulo `G(x)`: `a` goes up by the message's length, and the message by one byte. -/
theorem mk_bytePoly_crc8Fold (p a : Byte) (bytes : List Byte) :
    AdjoinRoot.mk (generatorPoly p) (bytePoly (crc8Fold p a bytes)) =
      AdjoinRoot.mk (generatorPoly p) (X ^ (8 * bytes.length) * bytePoly a + X ^ 8 * messagePoly bytes) := by
  induction bytes generalizing a with
  | nil => simp [messagePoly]
  | cons b bs ih =>
    have hexpand : X ^ (8 * bs.length) * (X ^ 8 * (bytePoly a + bytePoly b)) + X ^ 8 * messagePoly bs =
        X ^ (8 * (bs.length + 1)) * bytePoly a + X ^ 8 * messagePoly (b :: bs) := by
      rw [messagePoly]
      ring
    rw [crc8Fold_cons, ih, crc8Step_eq_byteFn, map_add, map_mul, mk_bytePoly_byteFn, ← map_mul, ← map_add,
      bytePoly_xor, hexpand, List.length_cons]

/-- The accumulator before a message acts as if it were XORed into the message's first byte (R68 item 1). -/
theorem crc8Fold_cons_eq_fold_from_zero (p a m : Byte) (rest : List Byte) :
    crc8Fold p a (m :: rest) = crc8Fold p 0x00#8 ((a ^^^ m) :: rest) := by
  simp only [crc8Fold_cons, crc8Step_eq_byteFn, BitVec.zero_xor]

theorem bytePoly_crc8Fold_cons (p a m : Byte) (rest : List Byte) :
    bytePoly (crc8Fold p a (m :: rest)) = (X ^ 8 * messagePoly ((a ^^^ m) :: rest)) %ₘ generatorPoly p := by
  apply bytePoly_eq_modByMonic
  rw [crc8Fold_cons_eq_fold_from_zero, mk_bytePoly_crc8Fold, bytePoly_zero, mul_zero, zero_add]

/-- Settles O41: each is the remainder of what it equals modulo `G(x)`. -/
theorem accumulatorIsPolynomialRemainder : Obligations.AccumulatorIsPolynomialRemainder := by
  unfold Obligations.AccumulatorIsPolynomialRemainder
  refine ⟨fun p v => bytePoly_eq_modByMonic (mk_bytePoly_stage p v),
    fun p v => bytePoly_eq_modByMonic (mk_bytePoly_byteFn p v),
    fun s m rest hs => ?_⟩
  obtain ⟨t, hpushes, hacc⟩ := exists_edges_pushPins (m :: rest) hs
  exact ⟨t, hpushes, hacc ▸ bytePoly_crc8Fold_cons s.poly s.acc m rest⟩

end Sys2Proof.Machine
end

section
/-! PROOFS. `RESET` and `GET` (spec/42_reset_get.md R70 to R72): the effect of the one is its initial value in the accumulator,
the effect of the other is none, so that what they do after another command is read off that command's effect. -/

namespace Sys2Proof.Machine

/-! ## A second command that adds nothing to the first -/

/-- After a command that answered, in whatever phase it began, every command leaves its effect on that command's effect (R24,
R99). -/
theorem exec_after_exec {i : Instr} {s t : State} (h : exec i s = .next t) (j : Instr) :
    exec j t = .next (respond (result (effect j (effect i s))) false (effect j (effect i s))) := by
  have hphase : (effect i s).phase = .ready := by simpa [exec_eq_next h] using phase_of_exec_eq_next h
  rw [exec_eq_next h, exec_respond, exec_of_ready hphase]

/-- A command that adds nothing to the effect of the one before leaves the whole state, the response included. -/
theorem exec_after_exec_of_effect_eq {i j : Instr} {s t : State} (hj : effect j (effect i s) = effect i s)
    (h : exec i s = .next t) : exec j t = .next t := by
  rw [exec_after_exec h, hj, ← exec_eq_next h]

/-! ## `RESET` -/

/-- `RESET` adds nothing where the accumulator holds the initial value. -/
theorem effect_reset_of_acc_eq_init {s : State} (h : s.acc = s.init) : effect .reset s = s :=
  congrArg (setAcc · s) h.symm

/-- An initialiser and `RESET` leave the initial value in the accumulator (R19). -/
theorem effect_acc_eq_init {i : Instr} (hi : i = .reset ∨ isInitialiser (.command i) = true) (s : State) :
    (effect i s).acc = (effect i s).init := by
  obtain rfl | hi := hi
  · rfl
  · exact effect_acc_of_initialiser hi s

/-- The effect of `RESET` with its response, field by field (R70). -/
theorem exec_reset_of_ready {s : State} (hs : s.phase = .ready) : exec .reset s =
    .next { s with acc := s.init, respValid := true, respData := s.init ^^^ s.xorout, respErr := false } :=
  exec_of_ready hs

/-- Settles O24: after `RESET` or an initialiser the accumulator holds the initial value, so that `RESET` adds nothing, and the
worked examples are values of its effect. -/
theorem resetRule : Obligations.ResetRule := by
  unfold Obligations.ResetRule
  refine ⟨rfl, decode_encode .reset, fun s => exec_of_uninit rfl, fun s => exec_reset_of_ready, fun i s t hi h => ?_,
    fun s hs hregs => ⟨_, exec_reset_of_ready hs, ?_⟩, fun s hs hinit hxorout => ⟨_, exec_reset_of_ready hs, hinit, ?_⟩⟩
  · exact exec_after_exec_of_effect_eq (effect_reset_of_acc_eq_init (effect_acc_eq_init hi s)) h
  · have hinit : s.init = 0xFF#8 := congrArg Registers.init hregs
    have hxorout : s.xorout = 0x00#8 := congrArg Registers.xorout hregs
    exact ⟨hinit, by simp [hinit, hxorout]⟩
  · simp [hinit, hxorout]

/-! ## `GET` -/

@[simp] theorem effect_get (s : State) : effect .get s = s := rfl

/-- In READY `GET` writes the response register alone (R71). -/
theorem exec_get_of_ready {s : State} (hs : s.phase = .ready) : exec .get s = .next (respond (result s) false s) :=
  exec_of_ready hs

/-- `GET` answers a next state in READY only, and that is its response in the response register (R71, R80). -/
theorem exec_get_eq_next {s t : State} (h : exec .get s = .next t) :
    s.phase = .ready ∧ t = respond (result s) false s :=
  ⟨(whenReady_eq_next.1 h).1, exec_eq_next h⟩

/-- `GET` right after any command leaves the whole state: it repeats that command's response (R71). -/
theorem exec_get_after_exec {i : Instr} {s t : State} (h : exec i s = .next t) : exec .get t = .next t :=
  exec_after_exec_of_effect_eq (effect_get (effect i s)) h

/-- With `xorout` all ones the result is the complement of the accumulator (R71). -/
theorem result_of_xorout_ones {s : State} (h : s.xorout = 0xFF#8) : result s = ~~~s.acc := by
  rw [result, h]
  exact BitVec.xor_allOnes

/-- With `xorout` zero the result is the accumulator (R71). -/
theorem result_of_xorout_zero {s : State} (h : s.xorout = 0x00#8) : result s = s.acc := by
  rw [result, h, BitVec.xor_zero]

/-- Settles O25: the response of `GET` is `result`, which is also what `crc_out` shows, and its effect is none, so that it
repeats the response of a `GET` or a `PUSH` before it. -/
theorem getRule : Obligations.GetRule := by
  unfold Obligations.GetRule
  refine ⟨rfl, decode_encode .get, fun s => exec_of_uninit rfl, fun s => exec_get_of_ready,
    fun s t => exec_get_after_exec, fun b s t => exec_get_after_exec, fun s t h => ?_, fun s hs hacc hxorout => ?_⟩
  · obtain ⟨hs, rfl⟩ := exec_get_eq_next h
    exact ⟨result_of_xorout_zero, result_of_xorout_ones, readCrcOut_of_ready hs⟩
  · exact ⟨_, exec_get_of_ready hs, by simp [result, hacc, hxorout]⟩

/-! ## `RESET` and `GET` in a row -/

/-- Settles O33: the `GET` repeats the response of the `RESET`, or of the `GET`, before it. -/
theorem resetGetLaws : Obligations.ResetGetLaws := by
  unfold Obligations.ResetGetLaws
  intro s hs
  have hreset := exec_reset_of_ready hs
  have hget := exec_get_of_ready hs
  have hpair : andThen (exec .reset s) (exec .get) = exec .reset s := by
    rw [hreset, andThen, exec_get_after_exec hreset]
  exact ⟨⟨_, hpair.trans hreset, rfl, rfl⟩, _, hget, exec_get_after_exec hget, rfl⟩

end Sys2Proof.Machine
end

section
/-! PROOFS. `BATCH` (R73 to R76): what the reads of a buffer in the host's memory answer, what forming a `BATCH` answers, and
how its edges start in UNINIT. -/

namespace Sys2Proof.Machine

/-! ## Reading the buffer -/

/-- A non-empty buffer is its first byte, readable, before the buffer at the next address (R33). -/
theorem readBuffer_succ_eq_ok {mem : List Host.Cell} {data size : Nat} {bytes : List Byte} :
    readBuffer mem data (size + 1) = .ok bytes ↔
      ∃ b bs, hostRead mem data = some b ∧ readBuffer mem (data + 1) size = .ok bs ∧ bytes = b :: bs := by
  cases hb : hostRead mem data with
  | none => simp [readBuffer, hb]
  | some b => cases hbs : readBuffer mem (data + 1) size <;> simp [readBuffer, hb, hbs, eq_comm]

/-- The bytes read are `size` many, and the `k`-th is the one at `data + k` (R33, R76). -/
theorem readBuffer_eq_ok_iff {mem : List Host.Cell} {data size : Nat} {bytes : List Byte} :
    readBuffer mem data size = .ok bytes ↔
      bytes.length = size ∧ ∀ k < size, hostRead mem (data + k) = bytes[k]? := by
  induction size generalizing data bytes with
  | zero =>
    rw [readBuffer, Except.ok.injEq, eq_comm]
    simp
  | succ size ih =>
    rw [readBuffer_succ_eq_ok]
    cases bytes with
    | nil => simp
    | cons b bs =>
      have hnext (k : Nat) : data + 1 + k = data + (k + 1) := by omega
      simp only [ih, hnext, Nat.forall_lt_succ_left, List.length_cons, List.getElem?_cons_zero,
        List.getElem?_cons_succ, Nat.add_right_cancel_iff, Nat.add_zero, List.cons.injEq]
      constructor
      · rintro ⟨_, _, hb, ⟨hlength, hbs⟩, rfl, rfl⟩
        exact ⟨hlength, hb, hbs⟩
      · rintro ⟨hlength, hb, hbs⟩
        exact ⟨b, bs, hb, ⟨hlength, hbs⟩, rfl, rfl⟩

/-! ## Forming a `BATCH` -/

theorem formBatch_of_length_ne {size : Nat} {bytes : List Byte} (h : bytes.length ≠ size) :
    formBatch size bytes = .error (.batchSizeMismatch size bytes.length) := if_neg h

/-- A buffer that can be read is presented as the `BATCH` of its bytes (R73). -/
theorem batchBuffer_of_readBuffer_eq_ok {mem : List Host.Cell} {data size : Nat} {bytes : List Byte}
    (h : readBuffer mem data size = .ok bytes) : batchBuffer mem data size = .ok (batchPins bytes) := by
  simp [batchBuffer, h, formBatch, readBuffer_length h]

theorem batchBuffer_of_readBuffer_eq_error {mem : List Host.Cell} {data size : Nat} {r : Refusal}
    (h : readBuffer mem data size = .error r) : batchBuffer mem data size = .error r := by
  simp [batchBuffer, h]

/-- A buffer with a byte that is not readable is refused (R76). -/
theorem batchBuffer_refuses_unreadable {mem : List Host.Cell} {data size k : Nat} (hk : k < size)
    (hread : hostRead mem (data + k) = none) : ∃ r, batchBuffer mem data size = .error r := by
  cases hbytes : readBuffer mem data size with
  | error r => exact ⟨r, batchBuffer_of_readBuffer_eq_error hbytes⟩
  | ok bytes =>
    obtain ⟨hlength, hbyte⟩ := readBuffer_eq_ok_iff.1 hbytes
    have hend : bytes.length ≤ k := List.getElem?_eq_none_iff.1 ((hbyte k hk).symm.trans hread)
    omega

/-! ## The edges of a `BATCH` -/

/-- In UNINIT a run that starts with a command other than an initialiser ends at that command (R80). -/
theorem edges_command_cons_of_uninit {i : Instr} (hi : isInitialiser (.command i) = false) (ps : List Pins) {s : State}
    (hs : s.phase = .uninit) : edges (Pins.command i :: ps) s = .fault (.uninitializedUse (.command i)) := by
  rw [edges_cons, edge_command, exec_of_uninit hi hs, andThen]

/-! ## The source's vectors -/

theorem crc8Fold_append (p a : Byte) (xs ys : List Byte) :
    crc8Fold p a (xs ++ ys) = crc8Fold p (crc8Fold p a xs) ys := List.foldl_append

/-- The bytes of vector V1 (spec/95_test_vectors.md section 1), which begin those of V2. -/
def sourceVector1 : List Byte :=
  [0x12, 0x63, 0xAA, 0xBB, 0xCC, 0xCD, 0x02, 0x0F, 0x00, 0x4D,
   0x12, 0x63, 0xAA, 0xBB, 0xCC, 0xCD, 0x02, 0x0F, 0x00, 0x4D]

theorem crc8Fold_sourceVector1 : crc8Fold 0xB7#8 0xFF#8 sourceVector1 = 0x03#8 := by
  simp [sourceVector1, crc8Step, stage_eq, shl1]

theorem crc8Fold_sourceVector2 : crc8Fold 0xB7#8 0xFF#8 (sourceVector1 ++ [0xC2, 0x6A]) = 0x90#8 := by
  rw [crc8Fold_append, crc8Fold_sourceVector1]
  simp [crc8Step, stage_eq, shl1]

/-! ## The statements -/

/-- Settles O43: `edges_batchPins` is the net effect, the first expanded command is a `PUSH` or, of no bytes, the `GET`, and
what the pointer form presents or refuses is what the reads of its buffer answer. -/
theorem batchRule : Obligations.BatchRule := by
  unfold Obligations.BatchRule
  refine ⟨fun s bytes => edges_batchPins bytes, fun s bytes hs => ?_, fun bytes => rfl,
    fun mem data size bytes hlength hbytes => ?_, fun mem data size k => batchBuffer_refuses_unreadable,
    fun size bytes => formBatch_of_length_ne, crc8Fold_sourceVector1, crc8Fold_sourceVector2⟩
  · cases bytes with
    | nil => exact edges_command_cons_of_uninit rfl [] hs
    | cons b bs => exact edges_command_cons_of_uninit rfl (batchPins bs) hs
  · exact batchBuffer_of_readBuffer_eq_ok (readBuffer_eq_ok_iff.2 ⟨hlength, hbytes⟩)

/-- Settles O44: the empty buffer needs no read, and the fold over no bytes is the accumulator. -/
theorem zeroLengthBatch : Obligations.ZeroLengthBatch := by
  unfold Obligations.ZeroLengthBatch
  exact ⟨fun mem data => batchBuffer_of_readBuffer_eq_ok (bytes := []) rfl, fun s hs => ⟨_, edges_batchPins [] hs, rfl, rfl⟩⟩

end Sys2Proof.Machine
end


section
/-! PROOFS. Exceptions (spec/60_exceptions.md R78 to R82): what an accepted word answers, by what it decodes to and by the
phase, and that no later move of the host clears a fault. -/

namespace Sys2Proof.Machine

/-! ## An accepted word in phase UNINIT -/

/-- The use that a word stands for, as the fault records it (R78, R79). -/
def wordUse (w : Word) : UninitUse :=
  match decode w with
  | .command i => .command i
  | .illegal _ => .illegalWord w

theorem wordUse_of_command {w : Word} {i : Instr} (h : decode w = .command i) : wordUse w = .command i := by
  simp [wordUse, h]

theorem wordUse_of_illegal {w : Word} {why : Illegal} (h : decode w = .illegal why) : wordUse w = .illegalWord w := by
  simp [wordUse, h]

theorem execIllegal_of_uninit (w : Word) {s : State} (hs : s.phase = .uninit) :
    execIllegal w s = .fault (.uninitializedUse (.illegalWord w)) := whenReady_of_uninit hs

/-- In UNINIT every word that is no initialiser faults with its use recorded (R80). -/
theorem executeWord_of_uninit {w : Word} {s : State} (hs : s.phase = .uninit) (hw : isInitialiser (decode w) = false) :
    executeWord w s = .fault (.uninitializedUse (wordUse w)) := by
  cases hd : decode w with
  | command i => rw [executeWord_of_command hd, wordUse_of_command hd, exec_of_uninit (hd ▸ hw) hs]
  | illegal why => rw [executeWord_of_illegal hd, wordUse_of_illegal hd, execIllegal_of_uninit w hs]

/-! ## An accepted word that the phase allows -/

/-- Where the phase allows it, a command leaves its effect with `result` of it as the response (R78). -/
theorem exec_of_allowed {i : Instr} {s : State} (h : s.phase = .ready ∨ isInitialiser (.command i) = true) :
    exec i s = .next (respond (result (effect i s)) false (effect i s)) := by
  obtain hs | hi := h
  · exact exec_of_ready hs
  · exact exec_initialiser hi s

/-- In READY an illegal word writes the response register alone (R79). -/
theorem execIllegal_of_ready (w : Word) {s : State} (hs : s.phase = .ready) :
    execIllegal w s = .next (respond (result s) true s) := whenReady_of_ready hs

/-- The guard of phase UNINIT faults and refuses nothing. -/
theorem whenReady_ne_refused {use : UninitUse} {s : State} {go : Host.Outcome State Fault Refusal}
    (hgo : ∀ r, go ≠ .refused r) (r : Refusal) : whenReady use s go ≠ .refused r := by
  cases hs : s.phase with
  | uninit => rw [whenReady_of_uninit hs]; nofun
  | ready => rw [whenReady_of_ready hs]; exact hgo r

theorem answer_ne_refused (err : Bool) (s : State) (r : Refusal) : answer err s ≠ .refused r := by
  rw [answer]; nofun

theorem exec_ne_refused (i : Instr) (s : State) (r : Refusal) : exec i s ≠ .refused r := by
  cases i with
  | initdef => exact answer_ne_refused _ _ r
  | initcus poly init xorout => exact answer_ne_refused _ _ r
  | push b => exact whenReady_ne_refused (answer_ne_refused _ _) r
  | reset => exact whenReady_ne_refused (answer_ne_refused _ _) r
  | get => exact whenReady_ne_refused (answer_ne_refused _ _) r

/-- Every accepted word has an outcome of R78. -/
theorem executeWord_ne_refused (w : Word) (s : State) (r : Refusal) : executeWord w s ≠ .refused r := by
  cases hd : decode w with
  | command i => rw [executeWord_of_command hd]; exact exec_ne_refused i s r
  | illegal why => rw [executeWord_of_illegal hd]; exact whenReady_ne_refused (answer_ne_refused _ _) r

/-! ## A fault over a run -/

theorem readWhenReady_of_uninit {α : Type} {o : Output} {s : State} {value : α} (h : s.phase = .uninit) :
    readWhenReady o s value = .error (.uninitializedUse (.read o)) := by
  simp [readWhenReady, h]

/-- The moves of two lists are those of the second from where the first ends; a fault of the first is kept (R80). -/
theorem moves_append (ms ms' : List HostMove) (s : State) : moves (ms ++ ms') s = andThen (moves ms s) (moves ms') := by
  induction ms generalizing s with
  | nil => rfl
  | cons m ms ih =>
    rw [List.cons_append, moves, moves]
    cases move m s with
    | next t => exact ih t
    | fault f => rfl
    | refused r => rfl

theorem recordedFault_eq_some {o : Host.Outcome State Fault Refusal} {f : Fault} :
    recordedFault o = some f ↔ o = .fault f := by
  cases o <;> simp [recordedFault]

theorem goodEnd_of_edges_fault {ps : List Pins} {s : State} {f : Fault} (h : edges ps s = .fault f) :
    goodEnd ps s = false := by
  simp [goodEnd, h]

/-! ## The statements -/

/-- Settles O5: a word and a read meet the guard of phase UNINIT, and what follows a fault does not run. -/
theorem uninitializedUseIsKept : Obligations.UninitializedUseIsKept := by
  unfold Obligations.UninitializedUseIsKept
  refine ⟨fun w s => executeWord_of_uninit, fun s hs => ?_, fun ms ms' s f h => ?_,
    fun ps s f h => goodEnd_of_edges_fault (recordedFault_eq_some.1 h)⟩
  · exact ⟨readWhenReady_of_uninit hs, readWhenReady_of_uninit hs, readWhenReady_of_uninit hs,
      readWhenReady_of_uninit hs, fun o => whenReady_of_uninit hs⟩
  · rw [moves_append, h, andThen]

/-- Settles O19, by what the word decodes to and by the phase. -/
theorem outcomesOfAcceptedWord : Obligations.OutcomesOfAcceptedWord := by
  unfold Obligations.OutcomesOfAcceptedWord
  intro w s
  refine ⟨fun i hd hallowed => ?_, fun why hd hs => ?_, executeWord_of_uninit, fun o => whenReady_of_uninit,
    executeWord_ne_refused w s⟩
  · exact ⟨_, (executeWord_of_command hd).trans (exec_of_allowed hallowed), rfl, rfl⟩
  · exact ⟨_, (executeWord_of_illegal hd).trans (execIllegal_of_ready w hs), rfl, rfl, rfl⟩

/-- Settles O9: each check is one kind of edge, and the word of the last three is executed. -/
theorem edgePriority : Obligations.EdgePriority := by
  unfold Obligations.EdgePriority
  intro p s
  refine ⟨edge_of_rst, edge_of_idle, fun hr hv hs hw => ?_, fun hr hv hs ⟨why, hd⟩ => ?_, fun hr hv i hd hallowed => ?_⟩
  · exact ⟨_, (edge_of_word hr hv).trans (executeWord_of_uninit hs hw)⟩
  · exact (edge_of_illegal hr hv hd).trans (execIllegal_of_ready p.cmdWord hs)
  · exact ⟨edge_of_command hr hv hd, _, exec_of_allowed hallowed, rfl⟩

/-- Settles O20: an illegal word leaves its response alone behind, and no command looks at it. -/
theorem illegalWordRule : Obligations.IllegalWordRule := by
  unfold Obligations.IllegalWordRule
  refine ⟨fun w s => execIllegal_of_uninit w, fun w s => execIllegal_of_ready w, fun w i s t h => ?_⟩
  obtain ⟨hs, rfl⟩ := execIllegal_eq_next h
  exact ⟨exec_respond i _ _ s, _, exec_of_ready hs, rfl⟩

end Sys2Proof.Machine
end

section
/-! PROOFS. Several engines (R89, log 16): an edge of one engine is its own step at its own place in the list, so that a
schedule gives each engine its own edges alone. -/

namespace Sys2Proof.Machine

theorem engineStep_running_of_next {s t : State} (h : step s = .next t) : engineStep (.running s) = .running t :=
  engineStep_eq_running.2 ⟨s, rfl, h⟩

theorem engineStep_running_of_fault {s : State} {f : Fault} (h : step s = .fault f) :
    engineStep (.running s) = .faulted f := by
  simp [engineStep, h]

@[simp] theorem length_stepEngine (k : Nat) (es : Platform) : (stepEngine k es).length = es.length :=
  List.length_modify engineStep es k

theorem getElem?_stepEngine_self (k : Nat) (es : Platform) : (stepEngine k es)[k]? = es[k]?.map engineStep :=
  List.getElem?_modify_eq engineStep k es

theorem getElem?_stepEngine_of_ne {k j : Nat} (h : j ≠ k) (es : Platform) : (stepEngine k es)[j]? = es[j]? :=
  List.getElem?_modify_ne engineStep es h.symm

/-- An engine of a platform after an edge of its own is its own step. -/
theorem getElem?_stepEngine_of_eq_some {k : Nat} {es : Platform} {e : Engine} (h : es[k]? = some e) :
    (stepEngine k es)[k]? = some (engineStep e) := by
  rw [getElem?_stepEngine_self, h, Option.map_some]

/-- After a schedule each engine has done its own edges, as often as the schedule names it (R89). -/
theorem getElem?_stepEngines (schedule : List Nat) (es : Platform) (k : Nat) :
    (stepEngines schedule es)[k]? = es[k]?.map (engineStep^[schedule.count k]) := by
  induction schedule generalizing es with
  | nil => simp
  | cons j js ih =>
    rw [stepEngines_cons, ih]
    by_cases hj : j = k
    · subst hj
      rw [getElem?_stepEngine_self, Option.map_map, List.count_cons_self, Function.iterate_succ]
    · rw [getElem?_stepEngine_of_ne (Ne.symm hj), List.count_cons_of_ne hj]

/-- Settles O48: the engine at `k` becomes what its own step gives, and every other place keeps its engine. -/
theorem enginesAreIndependent : Obligations.EnginesAreIndependent := by
  unfold Obligations.EnginesAreIndependent
  refine ⟨fun k es => ⟨length_stepEngine k es, fun j hj => getElem?_stepEngine_of_ne hj es, fun s hs => ⟨?_, ?_⟩,
    fun f hf => getElem?_stepEngine_of_eq_some hf⟩, getElem?_stepEngines⟩
  · intro t ht
    rw [getElem?_stepEngine_of_eq_some hs, engineStep_running_of_next ht]
  · intro f hf
    rw [getElem?_stepEngine_of_eq_some hs, engineStep_running_of_fault hf]

end Sys2Proof.Machine
end

section
/-! PROOFS. What an edge leaves (spec/70_reset_and_hazards.md R92 to R97): the invariant of the response register, the state
after an accepted word and after the first edge of a boot, and the three kinds of edge one by one. -/

namespace Sys2Proof.Machine

/-! ## The invariant of the response register -/

/-- A state that has just responded with its own result is coherent, whatever the error bit (R97). -/
theorem responseCoherent_respond (err : Bool) (s : State) : ResponseCoherent (respond (result s) err s) :=
  fun _ => .inl rfl

/-- A hardware reset leaves the second alternative of the invariant (R31). -/
theorem responseCoherent_hardwareReset (s : State) : ResponseCoherent (hardwareReset s) := fun _ => .inr rfl

/-- An idle edge keeps both sides of the invariant's equation, and it keeps the reset state, whose `resp_valid` is 0 (R98). -/
theorem responseCoherent_dropResponse {s : State} (h : ResponseCoherent s) : ResponseCoherent (dropResponse s) :=
  fun hready => (h hready).imp id fun hreset => by rw [hreset]; rfl

/-- The invariant does not look at the host's list. -/
theorem responseCoherent_advance {s : State} (h : ResponseCoherent s) : ResponseCoherent (advance s) :=
  fun hready => (h hready).imp id fun hreset => by rw [hreset]; rfl

theorem edge_keeps_responseCoherent {p : Pins} {s t : State} (hs : ResponseCoherent s) (h : edge p s = .next t) :
    ResponseCoherent t := by
  obtain ⟨-, rfl⟩ | ⟨-, -, rfl⟩ | ⟨-, -, i, -, hx⟩ | ⟨-, -, -, rfl, -⟩ := edge_eq_next h
  · exact responseCoherent_hardwareReset s
  · exact responseCoherent_dropResponse hs
  · rw [exec_eq_next hx]
    exact responseCoherent_respond false (effect i s)
  · exact responseCoherent_respond true s

/-- Settles O17: a step is an edge after the host has moved on, and each keeps the invariant. -/
theorem stepKeepsResponseCoherent : Obligations.StepKeepsResponseCoherent := by
  unfold Obligations.StepKeepsResponseCoherent
  exact fun s t hs h => edge_keeps_responseCoherent (responseCoherent_advance hs) h

/-! ## An accepted word -/

theorem edge_word (w : Word) : edge (Pins.word w) = executeWord w := rfl

/-- Only an idle edge keeps the phase UNINIT where it answers at all (R24, R94). -/
theorem edge_next_ready_of_not_idle {p : Pins} {s t : State} (hp : p.isIdle = false) (h : edge p s = .next t) :
    t.phase = .ready := by
  obtain ⟨-, rfl⟩ | ⟨hr, hv, -⟩ | ⟨-, -, i, -, hx⟩ | ⟨-, -, hs, rfl, -⟩ := edge_eq_next h
  · rfl
  · simp [Pins.isIdle, hr, hv] at hp
  · exact phase_of_exec_eq_next hx
  · exact hs

/-- An accepted word ends with `result` of the state it leaves in the response register (R27, R96). -/
theorem edge_next_respond_of_word {p : Pins} {s t : State} (hr : p.rst = false) (hv : p.cmdValid = true)
    (h : edge p s = .next t) : ∃ err u, t = respond (result u) err u := by
  cases hd : decode p.cmdWord with
  | command i => exact ⟨false, effect i s, edge_next_of_command h hr hv hd⟩
  | illegal why => exact ⟨true, s, edge_next_of_illegal h hr hv hd⟩

/-- The response register after an accepted word (R96). -/
theorem edge_next_response_of_word {p : Pins} {s t : State} (hr : p.rst = false) (hv : p.cmdValid = true)
    (h : edge p s = .next t) :
    t.respValid = true ∧ t.respData = t.acc ^^^ t.xorout ∧ (t.respErr = true ↔ ∃ why, decode p.cmdWord = .illegal why) := by
  have herr := edge_respErr_iff_illegal h hr hv
  obtain ⟨err, u, rfl⟩ := edge_next_respond_of_word hr hv h
  exact ⟨rfl, rfl, herr⟩

/-- Settles O10: in UNINIT the guard faults, a word does what it decodes to, and in READY every edge answers. -/
theorem wordTransition : Obligations.WordTransition := by
  unfold Obligations.WordTransition
  refine ⟨fun w s hs hw => ⟨_, executeWord_of_uninit hs hw⟩, fun w s _ => ?_, fun w s hs => ?_⟩
  · cases hd : decode w with
    | command i =>
      rw [executeWord_of_command hd]
      cases i with
      | initdef => rfl
      | initcus poly init xorout => rfl
      | push b => rfl
      | reset => rfl
      | get => rfl
    | illegal why => exact executeWord_of_illegal hd
  · obtain ⟨t, ht⟩ := exists_edge_next_of_ready (Pins.word w) hs
    exact ⟨t, ht, edge_keeps_ready ht hs⟩

/-- Settles O11, from the three kinds of edge and the response register after a word. -/
theorem clockEdge : Obligations.ClockEdge := by
  unfold Obligations.ClockEdge
  refine ⟨fun p s => edge_of_rst, fun p s => edge_of_word, fun w s t h => ?_, fun p s => edge_of_idle⟩
  rw [← edge_word] at h
  exact edge_next_response_of_word rfl rfl h

/-- Settles O12: the response is `result` of the state that the word leaves, which `crc_out` shows, and the next edge writes
the response register anew by its kind. -/
theorem responseTiming : Obligations.ResponseTiming := by
  unfold Obligations.ResponseTiming
  intro p s t hr hv h
  have hready : t.phase = .ready := edge_next_ready_of_not_idle (by simp [Pins.isIdle, hv]) h
  obtain ⟨hvalid, hdata, herr⟩ := edge_next_response_of_word hr hv h
  have hread : readRespData t = .ok (t.acc ^^^ t.xorout) := readWhenReady_eq_ok.2 ⟨hready, hdata⟩
  have hcrc : readCrcOut t = .ok t.respData := readWhenReady_eq_ok.2 ⟨hready, hdata.symm⟩
  refine ⟨hvalid, hread, hcrc, herr, fun q u hu => ⟨fun hqr => ?_, fun hqr hqv => ?_, fun hqr hqv => ?_⟩⟩
  · rw [edge_next_of_rst hu hqr]
    exact ⟨rfl, rfl, rfl⟩
  · rw [edge_next_of_idle hu hqr hqv]
    exact ⟨rfl, rfl, rfl⟩
  · exact edge_next_response_of_word hqr hqv hu

/-! ## Hardware reset and power-up -/

/-- Every edge of a run with `rst = 1` does the same reset, so that the whole run is one (R92). -/
theorem edges_of_forall_rst {ps : List Pins} (hne : ps ≠ []) (hps : ∀ p ∈ ps, p.rst = true) (s : State) :
    edges ps s = .next (hardwareReset s) := by
  induction ps generalizing s with
  | nil => exact absurd rfl hne
  | cons p ps ih =>
    obtain ⟨hp, hrest⟩ := List.forall_mem_cons.1 hps
    rw [edges_cons, edge_of_rst hp]
    cases ps with
    | nil => rfl
    | cons q qs => exact ih (List.cons_ne_nil q qs) hrest (hardwareReset s)

@[simp] theorem responseNow_hardwareReset (s : State) : responseNow (hardwareReset s) = [] := rfl

theorem responses_of_forall_rst {ps : List Pins} (hps : ∀ p ∈ ps, p.rst = true) (s : State) : responses ps s = [] := by
  induction ps generalizing s with
  | nil => rfl
  | cons p ps ih =>
    obtain ⟨hp, hrest⟩ := List.forall_mem_cons.1 hps
    rw [responses_cons_of_next (edge_of_rst hp), responseNow_hardwareReset, List.nil_append]
    exact ih hrest (hardwareReset s)

/-- Settles O2: a run of resets is one reset, whose state is that of `INITDEF` but for the response register. -/
theorem hardwareResetEdges : Obligations.HardwareResetEdges := by
  unfold Obligations.HardwareResetEdges
  refine ⟨fun ps s hne hps => ⟨edges_of_forall_rst hne hps s, responses_of_forall_rst hps s⟩, fun p s t hr h => ?_⟩
  obtain rfl := Host.Outcome.next.inj ((exec_initdef s).symm.trans h)
  exact edge_of_rst hr

theorem isIdle_eq_false_of_initialises {p : Pins} (h : p.initialises = true) : p.isIdle = false := by
  cases hr : p.rst with
  | true => simp [Pins.isIdle, hr]
  | false =>
    simp only [Pins.initialises, hr, Bool.false_or, Bool.and_eq_true] at h
    simp [Pins.isIdle, h.1]

/-- An edge that initialises answers in every phase and leaves READY (R94). -/
theorem exists_edge_next_of_initialises {p : Pins} (h : p.initialises = true) (s : State) :
    ∃ t, edge p s = .next t ∧ t.phase = .ready := by
  obtain ⟨u, hu⟩ := edge_of_initialises h
  exact ⟨_, hu s, edge_next_ready_of_not_idle (isIdle_eq_false_of_initialises h) (hu s)⟩

/-- From UNINIT an edge that answers leaves READY exactly when it initialises (R93). -/
theorem edge_next_ready_iff_of_uninit {p : Pins} {s t : State} (hs : s.phase = .uninit) (h : edge p s = .next t) :
    t.phase = .ready ↔ p.initialises = true := by
  cases hinit : p.initialises with
  | true => simp [edge_next_ready_of_not_idle (isIdle_eq_false_of_initialises hinit) h]
  | false =>
    cases hidle : p.isIdle with
    | true =>
      obtain rfl := Host.Outcome.next.inj ((edge_of_isIdle hidle s).symm.trans h)
      simp [hs]
    | false =>
      obtain ⟨f, hf⟩ := edge_of_uninit hidle hinit
      exact nomatch (hf s hs).symm.trans h

/-- Settles O3: the state at power-up is in UNINIT, and what an edge leaves there is `edge_next_ready_iff_of_uninit`. -/
theorem powerUpIsUninit : Obligations.PowerUpIsUninit := by
  unfold Obligations.PowerUpIsUninit
  exact ⟨fun s => ⟨rfl, rfl⟩, fun p s t => edge_next_ready_iff_of_uninit rfl,
    fun p s hp => exists_edge_next_of_initialises hp (powerCycle s)⟩

end Sys2Proof.Machine
end

section
/-! PROOFS. Runs from READY and from UNINIT (spec/70_reset_and_hazards.md R94 to R97, R101, R102): in READY no run stops, and
from UNINIT it is the first edge that is not idle which decides. -/

namespace Sys2Proof.Machine

/-! ## Runs from READY -/

/-- In READY a run never stops (R95). -/
theorem exists_edges_next_of_ready (ps : List Pins) {s : State} (hs : s.phase = .ready) :
    ∃ t, edges ps s = .next t ∧ t.phase = .ready := by
  induction ps generalizing s with
  | nil => exact ⟨s, rfl, hs⟩
  | cons p ps ih =>
    obtain ⟨t, ht⟩ := exists_edge_next_of_ready p hs
    rw [edges_cons, ht]
    exact ih (edge_keeps_ready ht hs)

/-- An accepted word gives one response, a reset and an idle edge none (R97). -/
theorem length_responseNow_of_edge {p : Pins} {s t : State} (h : edge p s = .next t) :
    (responseNow t).length = if !p.rst && p.cmdValid then 1 else 0 := by
  cases hr : p.rst with
  | true => simp [edge_next_of_rst h hr]
  | false =>
    cases hv : p.cmdValid with
    | false => simp [edge_next_of_idle h hr hv]
    | true => simp [responseNow, (edge_next_response_of_word hr hv h).1]

/-- In READY there are as many responses as accepted words (R97). -/
theorem length_responses_of_ready (ps : List Pins) {s : State} (hs : s.phase = .ready) :
    (responses ps s).length = (ps.filter fun p => !p.rst && p.cmdValid).length := by
  induction ps generalizing s with
  | nil => rfl
  | cons p ps ih =>
    obtain ⟨t, ht⟩ := exists_edge_next_of_ready p hs
    rw [responses_cons_of_next ht, List.length_append, length_responseNow_of_edge ht, ih (edge_keeps_ready ht hs)]
    simp only [← List.countP_eq_length_filter, List.countP_cons, Nat.add_comm]

/-- Settles O16, by induction over the inputs. -/
theorem readyRunsNeverStop : Obligations.ReadyRunsNeverStop := by
  unfold Obligations.ReadyRunsNeverStop
  exact fun ps _ hs => ⟨exists_edges_next_of_ready ps hs, length_responses_of_ready ps hs⟩

theorem length_batchPins (bytes : List Byte) : (batchPins bytes).length = bytes.length + 1 := by
  simp [batchPins, pushPins]

/-- Settles O49: the expansion is one `PUSH` per byte and the `GET`, and the responses are those of each kind of edge. -/
theorem edgesAndResponses : Obligations.EdgesAndResponses := by
  unfold Obligations.EdgesAndResponses
  exact ⟨length_batchPins, fun p s t => length_responseNow_of_edge, fun n => List.length_replicate⟩

/-- Settles O46: the run before ends in some state, and the edge leaves the same registers after every state. -/
theorem reconfigurationAbandonsDataSet : Obligations.ReconfigurationAbandonsDataSet := by
  unfold Obligations.ReconfigurationAbandonsDataSet
  intro ps p s s' hs hp
  obtain ⟨t, ht, -⟩ := exists_edges_next_of_ready ps hs
  obtain ⟨u, hu⟩ := edge_of_initialises hp
  have hedges : edges (ps ++ [p]) s = .next (setHost t.host u) := by
    rw [edges_append, ht, edges_singleton]
    exact hu t
  exact ⟨_, _, hedges, hu s', rfl⟩

/-- In READY what follows a `BATCH` starts from the fold over its bytes (R73). -/
theorem edges_batchPins_append (bytes : List Byte) (ps : List Pins) {s : State} (hs : s.phase = .ready) :
    edges (batchPins bytes ++ ps) s = edges ps
      (respond (crc8Fold s.poly s.acc bytes ^^^ s.xorout) false (setAcc (crc8Fold s.poly s.acc bytes) s)) := by
  rw [edges_append, edges_batchPins bytes hs, andThen]

/-- Settles O45: the second `BATCH` starts from the first one's fold, or from the initial value where `RESET` put it back. -/
theorem forgottenResetChains : Obligations.ForgottenResetChains := by
  unfold Obligations.ForgottenResetChains
  intro s xs ys hs
  constructor
  · rw [edges_batchPins_append xs _ hs, crc8Fold_append]
    exact ⟨_, edges_batchPins ys hs, rfl, rfl, rfl⟩
  · rw [edges_batchPins_append xs _ hs, edges_cons, edge_command, exec_respond,
      exec_of_ready (s := setAcc (crc8Fold s.poly s.acc xs) s) hs]
    exact ⟨_, edges_batchPins ys hs, rfl, rfl⟩

/-! ## Runs from UNINIT -/

theorem initialises_eq_false_of_isIdle {p : Pins} (h : p.isIdle = true) : p.initialises = false := by
  by_contra hinit
  rw [isIdle_eq_false_of_initialises (Bool.not_eq_false _ ▸ hinit)] at h
  cases h

theorem bootsFirst_cons_of_isIdle {p : Pins} (h : p.isIdle = true) (ps : List Pins) :
    bootsFirst (p :: ps) = bootsFirst ps := by
  simp [bootsFirst, h]

theorem bootsFirst_cons_of_not_isIdle {p : Pins} (h : p.isIdle = false) (ps : List Pins) :
    bootsFirst (p :: ps) = p.initialises := by
  simp [bootsFirst, h]

theorem recordedFault_edges_cons_of_next {p : Pins} {s t : State} (h : edge p s = .next t) (ps : List Pins) :
    recordedFault (edges (p :: ps) s) = recordedFault (edges ps t) := by
  rw [edges_cons, h, andThen]

theorem recordedFault_edges_cons_of_fault {p : Pins} {s : State} {f : Fault} (h : edge p s = .fault f)
    (ps : List Pins) : recordedFault (edges (p :: ps) s) = some f := by
  rw [edges_cons, h, andThen, recordedFault]

/-- In READY a run records no fault (R95). -/
theorem recordedFault_edges_of_ready (ps : List Pins) {s : State} (hs : s.phase = .ready) :
    recordedFault (edges ps s) = none := by
  obtain ⟨t, ht, -⟩ := exists_edges_next_of_ready ps hs
  rw [ht, recordedFault]

/-- In READY every run has a good end (R95, R104). -/
theorem goodEnd_of_ready (ps : List Pins) {s : State} (hs : s.phase = .ready) : goodEnd ps s = true := by
  obtain ⟨t, ht, hready⟩ := exists_edges_next_of_ready ps hs
  simp [goodEnd, ht, hready]

/-- Settles O7, by induction over the inputs: an idle first edge adds nothing on either side, an initialising one leaves
READY, where no run stops, and any other faults. -/
theorem bootRequirementIsExact : Obligations.BootRequirementIsExact := by
  unfold Obligations.BootRequirementIsExact
  intro ps
  induction ps with
  | nil =>
    intro s hs
    simp [goodEnd_nil_of_uninit hs, recordedFault, bootsFirst]
  | cons p ps ih =>
    intro s hs
    cases hidle : p.isIdle with
    | true =>
      have hedge := edge_of_isIdle hidle s
      obtain ⟨hfault, hgood⟩ := ih (dropResponse s) hs
      rw [recordedFault_edges_cons_of_next hedge, goodEnd_cons_of_next hedge, bootsFirst_cons_of_isIdle hidle]
      exact ⟨hfault, by simpa [initialises_eq_false_of_isIdle hidle] using hgood⟩
    | false =>
      rw [bootsFirst_cons_of_not_isIdle hidle]
      cases hinit : p.initialises with
      | true =>
        obtain ⟨t, hedge, ht⟩ := exists_edge_next_of_initialises hinit s
        rw [recordedFault_edges_cons_of_next hedge, goodEnd_cons_of_next hedge]
        simp [recordedFault_edges_of_ready ps ht, goodEnd_of_ready ps ht, hinit]
      | false =>
        obtain ⟨f, hedge⟩ := edge_of_uninit hidle hinit
        rw [recordedFault_edges_cons_of_fault (hedge s hs), goodEnd_cons_of_fault (hedge s hs)]
        simp

end Sys2Proof.Machine
end

section
/-! PROOFS. Idle cycles (spec/70_reset_and_hazards.md R98): an idle edge drops `resp_valid` alone, and no edge looks at it, so
that a run shows the same without its idle edges. -/

namespace Sys2Proof.Machine

/-- No edge looks at `resp_valid`: each sets it (R96). -/
theorem edge_dropResponse (p : Pins) (s : State) : edge p (dropResponse s) = edge p s := by
  cases hidle : p.isIdle with
  | true => rw [edge_of_isIdle hidle, edge_of_isIdle hidle]; rfl
  | false => exact edge_setResponse hidle false s.respData s.respErr s

/-- What R98 says that idle cycles leave alone: the responses, the fault, and the registers and phase at the end. -/
def runResult (ps : List Pins) (s : State) : List Response × Option Fault × Option (Registers × Phase) :=
  (responses ps s, recordedFault (edges ps s), (finalState (edges ps s)).map fun t => (registers t, t.phase))

theorem runResult_cons_of_isIdle {p : Pins} (h : p.isIdle = true) (ps : List Pins) (s : State) :
    runResult (p :: ps) s = runResult ps (dropResponse s) := by
  simp [runResult, responses, edge_of_isIdle h, andThen]

/-- The result of a run depends on the start state through its first edge, and on the rest through their results. -/
theorem runResult_cons_congr {p : Pins} {ps qs : List Pins} {s t : State} (hedge : edge p s = edge p t)
    (hrest : ∀ u, runResult ps u = runResult qs u) : runResult (p :: ps) s = runResult (p :: qs) t := by
  simp only [runResult, Prod.mk.injEq] at hrest
  cases he : edge p t <;> simp [runResult, responses, hedge, he, andThen, hrest]

theorem runResult_dropResponse (ps : List Pins) (s : State) : runResult ps (dropResponse s) = runResult ps s := by
  cases ps with
  | nil => rfl
  | cons p ps => exact runResult_cons_congr (edge_dropResponse p s) fun _ => rfl

theorem runResult_filter_not_isIdle (ps : List Pins) (s : State) :
    runResult ps s = runResult (ps.filter fun p => !p.isIdle) s := by
  induction ps generalizing s with
  | nil => rfl
  | cons p ps ih =>
    cases hidle : p.isIdle with
    | true =>
      rw [List.filter_cons_of_neg (by simp [hidle]), runResult_cons_of_isIdle hidle, runResult_dropResponse]
      exact ih s
    | false =>
      rw [List.filter_cons_of_pos (by simp [hidle])]
      exact runResult_cons_congr rfl ih

/-- Settles O13: the edge is `dropResponse`, and `runResult` is the three results the statement names. -/
theorem idleCyclesChangeNoResult : Obligations.IdleCyclesChangeNoResult := by
  unfold Obligations.IdleCyclesChangeNoResult
  refine ⟨fun w s => edge_of_idle rfl rfl, fun ps s => ?_⟩
  have hresult := runResult_filter_not_isIdle ps s
  simpa only [runResult, Prod.mk.injEq] using hresult

end Sys2Proof.Machine
end

section
/-! PROOFS. The step (spec/70_reset_and_hazards.md R95, R96, R104): one edge with the host's next input, and as many steps as
the host's list is long are the edges of that list. -/

namespace Sys2Proof.Machine

/-- With an input pending the step is its edge, on the state whose list has moved on. -/
theorem step_eq_edge_setHost {s : State} {p : Pins} {rest : List Pins} (h : s.host = p :: rest) :
    step s = edge p (setHost rest s) := by
  have hadvance : advance s = setHost rest s := by rw [advance, h, List.tail_cons, setHost]
  rw [step_of_cons h, hadvance]

/-- With nothing pending the step is an idle edge (log 2). -/
theorem step_of_nil {s : State} (h : s.host = []) : step s = .next (dropResponse s) := by
  have hpins : presented s = Pins.idle := by rw [presented, h, List.headD_nil]
  have htail : s.host.tail = s.host := by rw [h, List.tail_nil]
  rw [step, hpins, advance, htail]
  exact edge_of_idle rfl rfl

theorem decode_of_decodeInstr_eq_some {w : Word} {i : Instr} (h : decodeInstr w = some i) : decode w = .command i := by
  cases hd : decode w with
  | command j =>
    simp only [decodeInstr, hd, Option.some.injEq] at h
    rw [h]
  | illegal why => simp [decodeInstr, hd] at h

/-- Settles O8: the step is the edge of the host's next input, and that edge does what its word decodes to. -/
theorem stepRunsDecodedCommand : Obligations.StepRunsDecodedCommand := by
  unfold Obligations.StepRunsDecodedCommand
  refine ⟨fun s p rest => step_eq_edge_setHost, fun s => step_of_nil, fun s p rest i h hr hv hd => ?_,
    fun s p rest why h hr hv hd => ?_, fun s nbits w i h => ?_⟩
  · exact (step_eq_edge_setHost h).trans (edge_of_command hr hv hd)
  · exact (step_eq_edge_setHost h).trans (edge_of_illegal hr hv hd)
  · exact executeWord_of_command (decode_of_decodeInstr_eq_some h)

theorem core_run_succ (k : Nat) (s : State) :
    Host.Core.run Sys2Proof.core (k + 1) s = andThen (step s) (Host.Core.run Sys2Proof.core k) := by
  simp only [Host.Core.run, Sys2Proof.core]
  cases step s <;> rfl

/-- As many steps as a list is long are its edges, whatever the host presents after it (R104). -/
theorem core_run_setHost_append (ps rest : List Pins) (s : State) :
    Host.Core.run Sys2Proof.core ps.length (setHost (ps ++ rest) s) = edges ps (setHost rest s) := by
  induction ps generalizing s with
  | nil => rfl
  | cons p ps ih =>
    have hstep : step (setHost (p :: ps ++ rest) s) = edge p (setHost (ps ++ rest) s) := step_eq_edge_setHost rfl
    rw [List.length_cons, core_run_succ, hstep, edges_cons, edge_setHost, edge_setHost]
    cases edge p s with
    | next t => exact ih t
    | fault f => rfl
    | refused r => rfl

/-- Settles O15, by induction over the host's list. -/
theorem coreRunIsTheHostsEdges : Obligations.CoreRunIsTheHostsEdges := by
  unfold Obligations.CoreRunIsTheHostsEdges
  exact core_run_setHost_append

end Sys2Proof.Machine
end

section
/-! PROOFS. The source's vectors (spec/95_test_vectors.md section 1): the last response of a run that ends with a `BATCH` is
that of its `GET`, whatever initialised the engine, so that each vector is a fold over its bytes. -/

namespace Sys2Proof.Machine

/-- The responses of two lists are those of the first and then those of the second from where the first ends (R104). -/
theorem responses_append {ps : List Pins} {s t : State} (h : edges ps s = .next t) (qs : List Pins) :
    responses (ps ++ qs) s = responses ps s ++ responses qs t := by
  induction ps generalizing s with
  | nil =>
    obtain rfl := Host.Outcome.next.inj h
    rfl
  | cons p ps ih =>
    rw [edges_cons] at h
    cases he : edge p s with
    | next u =>
      rw [he] at h
      rw [List.cons_append, responses_cons_of_next he, responses_cons_of_next he, ih h, List.append_assoc]
    | fault f => simp [he, andThen] at h
    | refused r => simp [he, andThen] at h

/-- The last response of a `BATCH` is that of its `GET` (R73). -/
theorem getLast?_responses_batchPins (bytes : List Byte) {s : State} (hs : s.phase = .ready) :
    (responses (batchPins bytes) s).getLast? = some ⟨crc8Fold s.poly s.acc bytes ^^^ s.xorout, false⟩ := by
  induction bytes generalizing s with
  | nil => exact congrArg List.getLast? (responses_command_cons (i := .get) hs [])
  | cons b bs ih =>
    have hphase : (respond (result (effect (.push b) s)) false (effect (.push b) s)).phase = .ready :=
      effect_phase_of_ready hs
    rw [batchPins_cons, responses_command_cons hs, List.getLast?_cons, ih hphase]
    rfl

/-- After a run that ends in READY, a `BATCH` leaves the fold over its bytes in the accumulator (R73). -/
theorem edges_append_batchPins {ps : List Pins} {bytes : List Byte} {s t : State} {acc : Byte}
    (hrun : edges ps s = .next t) (hready : t.phase = .ready) (hfold : crc8Fold t.poly t.acc bytes = acc) :
    edges (ps ++ batchPins bytes) s = .next (respond (acc ^^^ t.xorout) false (setAcc acc t)) := by
  rw [edges_append, hrun, andThen, edges_batchPins bytes hready, hfold]

/-- After a run that ends in READY, a `BATCH` answers the fold from the configuration and accumulator found there (R73). -/
theorem getLast?_responses_append_batchPins {ps : List Pins} {bytes : List Byte} {s t : State} {acc : Byte}
    (hrun : edges ps s = .next t) (hready : t.phase = .ready) (hfold : crc8Fold t.poly t.acc bytes = acc) :
    (responses (ps ++ batchPins bytes) s).getLast? = some ⟨acc ^^^ t.xorout, false⟩ := by
  rw [responses_append hrun, List.getLast?_append, getLast?_responses_batchPins bytes hready, Option.some_or, hfold]

/-! ## The folds of V3 and V9 -/

theorem crc8Fold_sourceVector2_customPoly : crc8Fold 0x07#8 0x00#8 (sourceVector1 ++ [0xC2, 0x6A]) = 0xB6#8 := by
  simp [sourceVector1, crc8Step, stage_eq, shl1]

/-- Without `RESET` a second pass over V1 starts from the first one's `0x03` (R102). -/
theorem crc8Fold_sourceVector1_again : crc8Fold 0xB7#8 0x03#8 sourceVector1 = 0x5E#8 := by
  simp [sourceVector1, crc8Step, stage_eq, shl1]

/-! ## The statement -/

/-- Settles O50: each vector's bytes follow a run that initialises the engine, or, for V9, also processes them once. -/
theorem sourceVectors : Obligations.SourceVectors := by
  unfold Obligations.SourceVectors
  intro v1 v2 lastResponse
  have hinitdef : edges [Pins.command .initdef] State.powerUp =
      .next (respond 0xFF#8 false (configure 0xB7#8 0xFF#8 0x00#8 State.powerUp)) := by
    rw [edges_singleton, edge_command, exec_initdef]
    rfl
  have hreset : edges [Pins.reset] State.powerUp = .next (hardwareReset State.powerUp) := by
    rw [edges_singleton, edge_of_rst rfl]
  have hinitcus : edges [Pins.command (.initcus 0x07#8 0x00#8 0xFF#8)] State.powerUp =
      .next (respond 0xFF#8 false (configure 0x07#8 0x00#8 0xFF#8 State.powerUp)) := by
    rw [edges_singleton, edge_command, exec_initcus]
    rfl
  have hfirst : edges (Pins.command .initdef :: batchPins sourceVector1) State.powerUp =
      .next (respond 0x03#8 false (setAcc 0x03#8 (configure 0xB7#8 0xFF#8 0x00#8 State.powerUp))) :=
    edges_append_batchPins hinitdef rfl crc8Fold_sourceVector1
  exact ⟨getLast?_responses_append_batchPins hinitdef rfl crc8Fold_sourceVector1,
    getLast?_responses_append_batchPins hreset rfl crc8Fold_sourceVector2,
    getLast?_responses_append_batchPins hinitcus rfl crc8Fold_sourceVector2_customPoly,
    getLast?_responses_append_batchPins hfirst rfl crc8Fold_sourceVector1_again⟩

end Sys2Proof.Machine
end
